-- ==== Sys2Proof/Word.lean ====
section
/-! DEFINITION. The byte, the only data type the block computes on, and the 16-bit address field.

Rule R6 numbers the bits of a byte 7 (most significant) down to 0; R7 says that cursors, lengths and
addresses are exact integers, so they are natural numbers in this model and only bytes wrap. -/

namespace Sys2Proof

/-- R6: a byte is 8 bits and holds 0..255. -/
abbrev Byte := BitVec 8

/-- R5 `ADDR_BITS`, R66: the address field of types 4, 5, 6 is 16 bits wide. -/
abbrev Addr := BitVec 16

end Sys2Proof
end

