-- ==== Sys2Proof/Config.lean ====
section
/-! DEFINITION. The constants of rule R5, and the values the spec leaves free.

A free value is an `opaque` constant: nothing in Lean can evaluate it, so whatever is proved holds for every value. -/

namespace Sys2Proof.Config

/-- R5 `OUT_CAP`: capacity in bytes of OUT. -/
def outCap : Nat := 65536
/-- R5 `LEN_MAX`: largest token length. -/
def lenMax : Nat := 1024
/-- R5 `SHORT_MAX`: largest length the 1-byte header carries. -/
def shortMax : Nat := 32
/-- R5 `TERM`: the terminator byte. -/
def term : Byte := 0xFF#8
/-- R5 `SCAN_WIN`: the encoder's outer scan window. -/
def scanWin : Nat := 1024
/-- R5 `RUN_WIN`: the window of the byte run and of the arithmetic run. -/
def runWin : Nat := 1024
/-- R5 `WORD_WIN`: the window of the word run, in repeats. -/
def wordWin : Nat := 1024
/-- R5 `COPY_WIN`: largest length of a back-reference match. -/
def copyWin : Nat := 1024
/-- R5 `MIN_FILL`. -/
def minFill : Nat := 3
/-- R5 `MIN_WORD`, in repeats. -/
def minWord : Nat := 3
/-- R5 `MIN_SEQ`. -/
def minSeq : Nat := 4
/-- R5 `MIN_COPY`. -/
def minCopy : Nat := 5
/-- R5 `IN_MAX`: largest encoder input length accepted, and the size of IN (R22). -/
def inMax : Nat := 65536
/-- R5 `CS_BOUND(n)`: the room the platform gives CS for an input of `n` bytes. -/
def csBound (n : Nat) : Nat := n + n / 36 + 3
/-- R22: CS has 17-bit indices. -/
def csSize : Nat := 131072
/-- R67: the longest token, a long Literal of 1024 bytes, has 1026 stream bytes. -/
def tokenMax : Nat := 1026

/-- DESIGN CHOICE (log 1): the value of the open parameter `SRC_SIZE` in `State.reset`. No rule fixes it. -/
def resetSrcSize : Nat := 65536

/-- R11, D8: `SRC_AW = ceil(log2(SRC_SIZE))`, the number of bits that index SRC. -/
def srcAw (srcSize : Nat) : Nat := if srcSize ≤ 1 then 0 else Nat.log2 (srcSize - 1) + 1

/-- Free value (log 3): `UNSPEC8`, the byte the `d`-th read of an unwritten OUT byte returns (R159, U1). -/
opaque freeByte : Nat → Byte

/-- Free value (log 4): what the host sees in the `d`-th read of a register or byte whose value the spec
leaves unspecified (R185, U2, U9, U10), before it is cut to the width of what is read. -/
opaque freeView : Nat → Nat

/-- Free value (log 2): the platform's content of SRC at an index nothing has written (R37, D8). -/
opaque srcContent : Nat → Byte

/-- Free value (log 2): the content of IN at an index nothing has written (R37, U9). -/
opaque inContent : Nat → Byte

end Sys2Proof.Config
end

