-- ==== Sys2Proof/Syntax.lean ====
section
/-! DEFINITION. The instructions: the tokens of the compressed stream (R60 to R70), one constructor per row of the
opcode table.

`len` is the token's length as the rules use it (the header holds `len - 1`): 1..32 in the short form, 1..1024 in the
long form. The payload operands are the stream bytes after the header, in stream order. -/

namespace Sys2Proof

/-- R63: the tokens. The suffix `S` is the short header (row `<type>.S`), `L` the long header (row `<type>.L`). -/
inductive Instr where
  /-- R148, short header: `len` raw bytes. -/
  | literalS (len : Nat) (bytes : List Byte)
  /-- R149, short header: the fill byte. -/
  | fillS (len : Nat) (v : Byte)
  /-- R150, short header: the pair; `len` counts pairs. -/
  | wordFillS (len : Nat) (v0 v1 : Byte)
  /-- R151, short header: the start value. -/
  | sequenceS (len : Nat) (v : Byte)
  /-- R152, short header: absolute OUT address. -/
  | copyForwardS (len : Nat) (addr : Addr)
  /-- R153, short header. -/
  | copyBitReversedS (len : Nat) (addr : Addr)
  /-- R154, short header. -/
  | copyBackwardS (len : Nat) (addr : Addr)
  /-- R148, long header. -/
  | literalL (len : Nat) (bytes : List Byte)
  /-- R149, long header. -/
  | fillL (len : Nat) (v : Byte)
  /-- R150, long header. -/
  | wordFillL (len : Nat) (v0 v1 : Byte)
  /-- R151, long header. -/
  | sequenceL (len : Nat) (v : Byte)
  /-- R152, long header. -/
  | copyForwardL (len : Nat) (addr : Addr)
  /-- R153, long header. -/
  | copyBitReversedL (len : Nat) (addr : Addr)
  /-- R154, long header. -/
  | copyBackwardL (len : Nat) (addr : Addr)
  /-- R68, R155: byte 0 = 0xFC; the second header byte is fetched and ignored. -/
  | reserved7FC (b1 : Byte)
  /-- R68, R155: byte 0 = 0xFD. -/
  | reserved7FD (b1 : Byte)
  /-- R68, R155: byte 0 = 0xFE. -/
  | reserved7FE (b1 : Byte)
  /-- R143: byte 0 = 0xFF. -/
  | terminator
deriving DecidableEq, Repr

end Sys2Proof
end

