-- ==== Sys2Proof/WellFormed.lean ====
section
/-! DEFINITION. Which terms of `Instr` stand for a token: the length fits its header form (R61, R62), and a Literal
carries exactly `len` payload bytes (R63). -/

namespace Sys2Proof

/-- R61: a short header carries a length of 1..32. -/
def shortLen (len : Nat) : Bool := 1 ≤ len && len ≤ Config.shortMax

/-- R62: a long header carries a length of 1..1024. -/
def longLen (len : Nat) : Bool := 1 ≤ len && len ≤ Config.lenMax

/-- R63: the tokens that exist. Every address and every payload byte is legal (R69). -/
def Instr.wf : Instr → Bool
  | .literalS len bytes => shortLen len && bytes.length == len
  | .fillS len _ => shortLen len
  | .wordFillS len _ _ => shortLen len
  | .sequenceS len _ => shortLen len
  | .copyForwardS len _ => shortLen len
  | .copyBitReversedS len _ => shortLen len
  | .copyBackwardS len _ => shortLen len
  | .literalL len bytes => longLen len && bytes.length == len
  | .fillL len _ => longLen len
  | .wordFillL len _ _ => longLen len
  | .sequenceL len _ => longLen len
  | .copyForwardL len _ => longLen len
  | .copyBitReversedL len _ => longLen len
  | .copyBackwardL len _ => longLen len
  | .reserved7FC _ => true
  | .reserved7FD _ => true
  | .reserved7FE _ => true
  | .terminator => true

end Sys2Proof
end

