-- ==== Sys2Proof/Decode.lean ====
section
/-! DEFINITION. The header codec HDR (R85, R86), the decoder of a token from stream bytes (R65 to R68), the encoder of a
token (R61 to R63), and the opcode map (R63, R64). -/

namespace Sys2Proof

/-- R63: the seven command types; type 7 is reserved and is no command. -/
inductive Cmd where
  | literal | fill | wordFill | sequence | copyForward | copyBitReversed | copyBackward
deriving DecidableEq, Repr

/-- R63: the type code, 0..6. -/
def Cmd.code : Cmd → Nat
  | .literal => 0
  | .fill => 1
  | .wordFill => 2
  | .sequence => 3
  | .copyForward => 4
  | .copyBitReversed => 5
  | .copyBackward => 6

/-- R65: the command of a 3-bit type field; `none` is the reserved type 7. -/
def Cmd.ofBits (t : BitVec 3) : Option Cmd :=
  match t.toNat with
  | 0 => some .literal
  | 1 => some .fill
  | 2 => some .wordFill
  | 3 => some .sequence
  | 4 => some .copyForward
  | 5 => some .copyBitReversed
  | 6 => some .copyBackward
  | _ => none

/-- R61: the short header of `(c, len)`: `type * 32 + (len - 1)`. -/
def shortHeader (c : Cmd) (len : Nat) : List Byte :=
  [BitVec.ofNat 8 (c.code * 32 + (len - 1))]

/-- R62: the long header of `(c, len)`: `0xE0 + 4 * type + ((len - 1) >> 8)`, then the low 8 bits of `len - 1`. -/
def longHeader (c : Cmd) (len : Nat) : List Byte :=
  [BitVec.ofNat 8 (0xE0 + 4 * c.code + (len - 1) / 256), BitVec.ofNat 8 ((len - 1) % 256)]

/-- R85 `HdrEncode(type, length)`, for `type` in 0..6 and `length` in 1..1024 (outside: U6, no meaning). -/
def hdrEncode (c : Cmd) (len : Nat) : List Byte :=
  if len ≤ Config.shortMax then shortHeader c len else longHeader c len

/-- R61, R62: bits 7:5 of byte 0 other than 111 mark the short form. -/
def isShort (b0 : Byte) : Bool := b0.extractLsb 7 5 != 7#3

/-- R65: the length of a short header. -/
def shortLength (b0 : Byte) : Nat := (b0.extractLsb 4 0).toNat + 1

/-- R65: the length of a long header, bits 1:0 of byte 0 above byte 1. -/
def longLength (b0 b1 : Byte) : Nat := (b0.extractLsb 1 0 ++ b1).toNat + 1

/-- R86 `HdrDecode(b0, b1)`: type, length and bytes consumed; `none` is the reserved type 7. The caller has tested `b0`
for the terminator (R223); `b1` is looked at in the long form only. -/
def hdrDecode (b0 b1 : Byte) : Option (Cmd × Nat × Nat) :=
  if isShort b0 then (Cmd.ofBits (b0.extractLsb 7 5)).map fun c => (c, shortLength b0, 1)
  else (Cmd.ofBits (b0.extractLsb 4 2)).map fun c => (c, longLength b0 b1, 2)

/-- What the decoder reads from stream bytes: a token and the bytes after it, or the name of what is missing. -/
inductive DecodeResult where
  /-- a token, and the bytes after it -/
  | ok (i : Instr) (rest : List Byte)
  /-- the bytes end before the header does (R144, R160) -/
  | headerCut
  /-- the bytes end inside the payload or address of a token of this length (R145, R146, R160) -/
  | payloadCut (len : Nat)
deriving DecidableEq, Repr

/-- The first `n` bytes and the rest, if there are that many. -/
def splitExact : Nat → List Byte → Option (List Byte × List Byte)
  | 0, bs => some ([], bs)
  | _ + 1, [] => none
  | n + 1, b :: bs => (splitExact n bs).map fun p => (b :: p.1, p.2)

/-- R148: a payload of `len` raw bytes. -/
def takeRun (len : Nat) (bs : List Byte) (k : List Byte → Instr) : DecodeResult :=
  match splitExact len bs with
  | some (run, rest) => .ok (k run) rest
  | none => .payloadCut len

/-- R149, R151: a payload of one byte. -/
def takeByte (len : Nat) (bs : List Byte) (k : Byte → Instr) : DecodeResult :=
  match bs with
  | v :: rest => .ok (k v) rest
  | [] => .payloadCut len

/-- R150: a payload of two bytes, in stream order. -/
def takePair (len : Nat) (bs : List Byte) (k : Byte → Byte → Instr) : DecodeResult :=
  match bs with
  | v0 :: v1 :: rest => .ok (k v0 v1) rest
  | _ => .payloadCut len

/-- R66, R41: the two address bytes, high byte first. -/
def takeAddr (len : Nat) (bs : List Byte) (k : Addr → Instr) : DecodeResult :=
  takePair len bs fun hi lo => k (hi ++ lo)

/-- R63: the payload after a short header. -/
def decodeShort (c : Cmd) (len : Nat) (bs : List Byte) : DecodeResult :=
  match c with
  | .literal => takeRun len bs (Instr.literalS len)
  | .fill => takeByte len bs (Instr.fillS len)
  | .wordFill => takePair len bs (Instr.wordFillS len)
  | .sequence => takeByte len bs (Instr.sequenceS len)
  | .copyForward => takeAddr len bs (Instr.copyForwardS len)
  | .copyBitReversed => takeAddr len bs (Instr.copyBitReversedS len)
  | .copyBackward => takeAddr len bs (Instr.copyBackwardS len)

/-- R63: the payload after a long header. -/
def decodeLong (c : Cmd) (len : Nat) (bs : List Byte) : DecodeResult :=
  match c with
  | .literal => takeRun len bs (Instr.literalL len)
  | .fill => takeByte len bs (Instr.fillL len)
  | .wordFill => takePair len bs (Instr.wordFillL len)
  | .sequence => takeByte len bs (Instr.sequenceL len)
  | .copyForward => takeAddr len bs (Instr.copyForwardL len)
  | .copyBitReversed => takeAddr len bs (Instr.copyBitReversedL len)
  | .copyBackward => takeAddr len bs (Instr.copyBackwardL len)

/-- R68: the reserved token of a long header with type field 7. Byte 0 is 0xFC, 0xFD or 0xFE (0xFF has been tested
before); the second byte is part of the token and ignored. -/
def decodeReserved (b0 b1 : Byte) (rest : List Byte) : DecodeResult :=
  if b0 = 0xFC#8 then .ok (.reserved7FC b1) rest
  else if b0 = 0xFD#8 then .ok (.reserved7FD b1) rest
  else .ok (.reserved7FE b1) rest

/-- R142 stages 1 to 3 and the payload fetches, on the stream bytes from the cursor on. The terminator is tested before
the header (R143); the second header byte is read before the type is tested (R144). Total on any bytes. -/
def decode : List Byte → DecodeResult
  | [] => .headerCut
  | b0 :: bs =>
    if b0 = Config.term then .ok .terminator bs
    else if isShort b0 then
      match hdrDecode b0 0#8 with
      | some (c, len, _) => decodeShort c len bs
      | none => .headerCut -- never: a short header's type is not 7
    else
      match bs with
      | [] => .headerCut
      | b1 :: rest =>
        match hdrDecode b0 b1 with
        | some (c, len, _) => decodeLong c len rest
        | none => decodeReserved b0 b1 rest

/-- R41, R66: the address bytes, high byte first. -/
def addrBytes (a : Addr) : List Byte := [a.extractLsb 15 8, a.extractLsb 7 0]

/-- R63: the stream bytes of a token: header, then payload. -/
def encode : Instr → List Byte
  | .literalS len bytes => shortHeader .literal len ++ bytes
  | .fillS len v => shortHeader .fill len ++ [v]
  | .wordFillS len v0 v1 => shortHeader .wordFill len ++ [v0, v1]
  | .sequenceS len v => shortHeader .sequence len ++ [v]
  | .copyForwardS len addr => shortHeader .copyForward len ++ addrBytes addr
  | .copyBitReversedS len addr => shortHeader .copyBitReversed len ++ addrBytes addr
  | .copyBackwardS len addr => shortHeader .copyBackward len ++ addrBytes addr
  | .literalL len bytes => longHeader .literal len ++ bytes
  | .fillL len v => longHeader .fill len ++ [v]
  | .wordFillL len v0 v1 => longHeader .wordFill len ++ [v0, v1]
  | .sequenceL len v => longHeader .sequence len ++ [v]
  | .copyForwardL len addr => longHeader .copyForward len ++ addrBytes addr
  | .copyBitReversedL len addr => longHeader .copyBitReversed len ++ addrBytes addr
  | .copyBackwardL len addr => longHeader .copyBackward len ++ addrBytes addr
  | .reserved7FC b1 => [0xFC#8, b1]
  | .reserved7FD b1 => [0xFD#8, b1]
  | .reserved7FE b1 => [0xFE#8, b1]
  | .terminator => [Config.term]

/-- R67: the token's size in stream bytes. -/
def Instr.size : Instr → Nat
  | .literalS len _ => 1 + len
  | .fillS _ _ => 2
  | .wordFillS _ _ _ => 3
  | .sequenceS _ _ => 2
  | .copyForwardS _ _ => 3
  | .copyBitReversedS _ _ => 3
  | .copyBackwardS _ _ => 3
  | .literalL len _ => 2 + len
  | .fillL _ _ => 3
  | .wordFillL _ _ _ => 4
  | .sequenceL _ _ => 3
  | .copyForwardL _ _ => 4
  | .copyBitReversedL _ _ => 4
  | .copyBackwardL _ _ => 4
  | .reserved7FC _ => 2
  | .reserved7FD _ => 2
  | .reserved7FE _ => 2
  | .terminator => 1

/-- R63: the length field and the number of bytes the token produces in OUT, for the seven commands in both forms. -/
def Instr.lengths : Instr → Option (Nat × Nat)
  | .literalS len _ => some (len, len)
  | .fillS len _ => some (len, len)
  | .wordFillS len _ _ => some (len, 2 * len)
  | .sequenceS len _ => some (len, len)
  | .copyForwardS len _ => some (len, len)
  | .copyBitReversedS len _ => some (len, len)
  | .copyBackwardS len _ => some (len, len)
  | .literalL len _ => some (len, len)
  | .fillL len _ => some (len, len)
  | .wordFillL len _ _ => some (len, 2 * len)
  | .sequenceL len _ => some (len, len)
  | .copyForwardL len _ => some (len, len)
  | .copyBitReversedL len _ => some (len, len)
  | .copyBackwardL len _ => some (len, len)
  | .reserved7FC _ => none
  | .reserved7FD _ => none
  | .reserved7FE _ => none
  | .terminator => none

/-- A row of the opcode map (R64): it matches byte 0 iff `(byte0 & mask) = pattern`. -/
structure OpcodeRow where
  mnemonic : String
  pattern : Byte
  mask : Byte
deriving DecidableEq, Repr

/-- R64: does the row match this byte 0? -/
def OpcodeRow.hits (r : OpcodeRow) (b0 : Byte) : Bool := (b0 &&& r.mask) == r.pattern

/-- R63, R64: the opcode map over byte 0. -/
def opcodeRows : List OpcodeRow :=
  [ ⟨"Literal.S", 0x00#8, 0xE0#8⟩, ⟨"Fill.S", 0x20#8, 0xE0#8⟩, ⟨"WordFill.S", 0x40#8, 0xE0#8⟩,
    ⟨"Sequence.S", 0x60#8, 0xE0#8⟩, ⟨"CopyForward.S", 0x80#8, 0xE0#8⟩,
    ⟨"CopyBitReversed.S", 0xA0#8, 0xE0#8⟩, ⟨"CopyBackward.S", 0xC0#8, 0xE0#8⟩,
    ⟨"Literal.L", 0xE0#8, 0xFC#8⟩, ⟨"Fill.L", 0xE4#8, 0xFC#8⟩, ⟨"WordFill.L", 0xE8#8, 0xFC#8⟩,
    ⟨"Sequence.L", 0xEC#8, 0xFC#8⟩, ⟨"CopyForward.L", 0xF0#8, 0xFC#8⟩,
    ⟨"CopyBitReversed.L", 0xF4#8, 0xFC#8⟩, ⟨"CopyBackward.L", 0xF8#8, 0xFC#8⟩,
    ⟨"Reserved7.FC", 0xFC#8, 0xFF#8⟩, ⟨"Reserved7.FD", 0xFD#8, 0xFF#8⟩,
    ⟨"Reserved7.FE", 0xFE#8, 0xFF#8⟩, ⟨"Terminator", 0xFF#8, 0xFF#8⟩ ]

/-- The mnemonic of the token's row in the opcode map. -/
def Instr.mnemonic : Instr → String
  | .literalS _ _ => "Literal.S"
  | .fillS _ _ => "Fill.S"
  | .wordFillS _ _ _ => "WordFill.S"
  | .sequenceS _ _ => "Sequence.S"
  | .copyForwardS _ _ => "CopyForward.S"
  | .copyBitReversedS _ _ => "CopyBitReversed.S"
  | .copyBackwardS _ _ => "CopyBackward.S"
  | .literalL _ _ => "Literal.L"
  | .fillL _ _ => "Fill.L"
  | .wordFillL _ _ _ => "WordFill.L"
  | .sequenceL _ _ => "Sequence.L"
  | .copyForwardL _ _ => "CopyForward.L"
  | .copyBitReversedL _ _ => "CopyBitReversed.L"
  | .copyBackwardL _ _ => "CopyBackward.L"
  | .reserved7FC _ => "Reserved7.FC"
  | .reserved7FD _ => "Reserved7.FD"
  | .reserved7FE _ => "Reserved7.FE"
  | .terminator => "Terminator"

/-- The stream bytes of an instruction given as a number: byte `k` is bits `8k+7 : 8k` of `w`, for the `nbits / 8` bytes
the table numbers; every byte above them, up to the longest token, is 0. -/
def tableBytes (nbits w : Nat) : List Byte :=
  (List.range (nbits / 8)).map (fun k => BitVec.ofNat 8 (w / 2 ^ (8 * k)))
    ++ List.replicate (Config.tokenMax - nbits / 8) 0#8

/-- The instruction the decoder reads from an instruction whose bits are `w`. -/
def decodeTableWord (nbits w : Nat) : Option Instr :=
  match decode (tableBytes nbits w) with
  | .ok i _ => some i
  | .headerCut => none
  | .payloadCut _ => none

end Sys2Proof
end

