-- ==== Sys2Proof/Machine/State.lean ====
section
/-! DEFINITION. The machine's state (R11, R16, R22, R29), the moves of its agents (R10), the reasons a step can stop, and
the state after reset (R37). -/

namespace Sys2Proof.Machine

/-- R11, R16, D3: the state of a unit. -/
inductive UnitStatus where
  | idle | running | done | failed
deriving DecidableEq, Repr

/-- R181: the decoder's failure codes; code 7 is never produced (U12). -/
inductive DecErr where
  | none | reservedType | outOverflow | addrRange | copyRange | backUnderflow | srcRange
deriving DecidableEq, Repr

/-- R180: the encoder's failure codes; code 3 is never produced (U12). -/
inductive EncErr where
  | none | emptyInput | inputTooLong
deriving DecidableEq, Repr

/-- R10: the two units. -/
inductive UnitId where
  | enc | dec
deriving DecidableEq, Repr

/-- R22: the four byte-addressed spaces. -/
inductive Space where
  | src | out | inp | cs
deriving DecidableEq, Repr

/-- A space's contents: the bytes something has written, as (index, byte) pairs with strictly rising indices. An unlisted
index holds no value here; what reading it gives is said by the operation that reads it (log 2, log 3). -/
abbrev Memory := List Host.Cell

/-- R11: DEC's registers. Cursors are exact natural numbers (R7; log 11). -/
structure Dec where
  /-- `dec.status` (R15) -/
  status : UnitStatus
  /-- `dec.err` (R181) -/
  err : DecErr
  /-- `dec.src_off` (R34) -/
  srcOff : Nat
  /-- `dec.sc`, the stream cursor, the block's program counter (R12) -/
  sc : Nat
  /-- `dec.oc`, the output cursor (R13) -/
  oc : Nat
deriving DecidableEq, Repr

/-- R16: ENC's registers. `pos2` and `pos3` are working values of one iteration (R17; log 10). -/
structure Enc where
  /-- `enc.status` (R19) -/
  status : UnitStatus
  /-- `enc.err` (R180) -/
  err : EncErr
  /-- `enc.in_len` (R31) -/
  inLen : BitVec 17
  /-- `enc.pos` (R17) -/
  pos : Nat
  /-- `enc.wp` (R18) -/
  wp : Nat
deriving DecidableEq, Repr

/-- What the host can do to the block (R29 to R36, R210). Registers are named by unit and number (R29). -/
inductive HostCmd where
  /-- write a host-interface register -/
  | writeReg (u : UnitId) (no : Nat) (v : Nat)
  /-- read a host-interface register -/
  | readReg (u : UnitId) (no : Nat)
  /-- write a byte of a buffer (for SRC: the platform places it) -/
  | writeMem (sp : Space) (a : Nat) (b : Byte)
  /-- read a byte of a buffer -/
  | readMem (sp : Space) (a : Nat)
  /-- the block's one reset (R210, R211) -/
  | reset
deriving DecidableEq, Repr

/-- One move: of the host, or of a unit. -/
inductive Event where
  | host (c : HostCmd)
  | dec
  | enc
deriving DecidableEq, Repr

/-- The machine. `src`, `out`, `inp`, `cs` are the spaces of R22. -/
structure State where
  dec : Dec
  enc : Enc
  src : Memory
  out : Memory
  inp : Memory
  cs : Memory
  /-- the open parameter `SRC_SIZE` (R5, D8; log 1); no step changes it -/
  srcSize : Nat
  /-- the model's own: how many free values have been drawn (log 3, log 4) -/
  draws : Nat
  /-- the model's own: the moves to come, oldest first (log 5) -/
  agenda : List Event
  /-- the model's own: what the host's last read returned (log 6) -/
  hostRdata : Nat
deriving DecidableEq, Repr

/-- Why the machine stops with a fault. No token and no unit raises one: the spec's failures are next states (R182, R183). -/
inductive Fault where
  /-- Raised by a host access to an index the space does not have (R22). Safe: the machine stops where the spec describes
  no such byte (log 9). -/
  | noSuchIndex (sp : Space) (a : Nat)
deriving DecidableEq, Repr

/-- Why the machine has no step. -/
inductive Refusal where
  /-- An instruction whose meaning is not written, by mnemonic. No arm of `exec` uses it. Safe. -/
  | notModelled (mnemonic : String)
  /-- Raised by the host writing START while the unit is RUNNING: U3 takes the move from the host (log 8). Safe. -/
  | startWhileRunning (u : UnitId)
  /-- Raised by the host reading or writing a buffer, or writing a parameter register, that the RUNNING unit owns: R45,
  R49 and U4 take the move from the host (R36; log 8). Safe. -/
  | ownedWhileRunning (u : UnitId)
deriving DecidableEq, Repr

/-- The outcome of a step of this machine. -/
abbrev Result := Host.Outcome State Fault Refusal

/-- R37: DEC's registers after reset. -/
def Dec.reset : Dec := { status := .idle, err := .none, srcOff := 0, sc := 0, oc := 0 }

/-- R37: ENC's registers after reset. -/
def Enc.reset : Enc := { status := .idle, err := .none, inLen := 0#17, pos := 0, wp := 0 }

/-- R37, R212: the machine right after reset, nothing placed in any space and no move pending. The values of `srcSize`,
`draws`, `agenda` and `hostRdata` are DESIGN CHOICES (log 1, 3, 5, 6). -/
def State.reset : State :=
  { dec := Dec.reset, enc := Enc.reset, src := [], out := [], inp := [], cs := [],
    srcSize := Config.resetSrcSize, draws := 0, agenda := [], hostRdata := 0 }

end Sys2Proof.Machine
end

