-- ==== Sys2Proof/Machine/Flags.lean ====
section
/-! DEFINITION. The block has no condition codes (R20). Its only flag-like state is the pair (`status`, `err`) of each
unit; here are the codes the host reads for them (R11, R16, R180, R181). -/

namespace Sys2Proof.Machine

/-- R11, R16: the 2-bit code of `status`. -/
def statusCode : UnitStatus → Nat
  | .idle => 0
  | .running => 1
  | .done => 2
  | .failed => 3

/-- R181: the code of `dec.err`. -/
def decErrCode : DecErr → Nat
  | .none => 0
  | .reservedType => 1
  | .outOverflow => 2
  | .addrRange => 3
  | .copyRange => 4
  | .backUnderflow => 5
  | .srcRange => 6

/-- R180: the code of `enc.err`. -/
def encErrCode : EncErr → Nat
  | .none => 0
  | .emptyInput => 1
  | .inputTooLong => 2

end Sys2Proof.Machine
end

