-- ==== Sys2Proof/Machine/Operands.lean ====
section
/-! DEFINITION. The bit-reversal table BITREV (R80) and the bytes that the run tokens produce from their operands (R149
to R151). -/

namespace Sys2Proof.Machine

/-- R80: `BITREV(x)` has bit `i` equal to bit `7 - i` of `x`. -/
def bitrev (x : Byte) : Byte :=
  BitVec.ofBoolListBE
    [x.getLsbD 0, x.getLsbD 1, x.getLsbD 2, x.getLsbD 3, x.getLsbD 4, x.getLsbD 5, x.getLsbD 6, x.getLsbD 7]

/-- R149: the bytes of Fill. -/
def fillBytes (len : Nat) (v : Byte) : List Byte := List.replicate len v

/-- R150: the bytes of WordFill, `len` pairs, `v0` at the lower index. -/
def wordFillBytes : Nat → Byte → Byte → List Byte
  | 0, _, _ => []
  | n + 1, v0, v1 => v0 :: v1 :: wordFillBytes n v0 v1

/-- R151: the bytes of Sequence, counting up from `v` modulo 256. -/
def sequenceBytes : Nat → Byte → List Byte
  | 0, _ => []
  | n + 1, v => v :: sequenceBytes n (v + 1#8)

end Sys2Proof.Machine
end

