-- ==== Sys2Proof/Machine/Ops.lean ====
section
/-! DEFINITION. The named operations over memory and registers: reading and writing a space, the stream fetch (R160),
failing (R182, R183), starting (R30, R33, R101, R141), and the parts the token meanings share (R145, R146, R156, R157). -/

namespace Sys2Proof.Machine

/-! ### Memory -/

/-- The byte a space lists at an index, if any. -/
def Memory.read? (m : Memory) (a : Nat) : Option Byte :=
  match m with
  | [] => none
  | (a', b) :: rest => if a' = a then some b else Memory.read? rest a

/-- `MemWrite(S, a, 1, b)` (R8): list `b` at `a`, keeping the indices rising. -/
def Memory.write (m : Memory) (a : Nat) (b : Byte) : Memory :=
  match m with
  | [] => [(a, b)]
  | (a', b') :: rest =>
    if a' < a then (a', b') :: Memory.write rest a b
    else if a' = a then (a, b) :: rest
    else (a, b) :: (a', b') :: rest

/-- The cells of bytes that stand at `a, a + 1, ...`. -/
def Memory.cells (a : Nat) (bs : List Byte) : Memory :=
  match bs with
  | [] => []
  | b :: rest => (a, b) :: Memory.cells (a + 1) rest

/-- `MemWrite(S, a + j, 1, bs[j])` for every `j`: the cells below the run, the run, the cells above it. The indices
differ, so the order of these writes does not show. -/
def Memory.writeRun (m : Memory) (a : Nat) (bs : List Byte) : Memory :=
  m.filter (fun c => c.1 < a) ++ (Memory.cells a bs ++ m.filter (fun c => a + bs.length ≤ c.1))

/-- The canonical form: indices strictly rising. (No value is what an unlisted index holds, so no listed byte can repeat
it.) -/
def Memory.wf (m : Memory) : Bool :=
  match m with
  | [] => true
  | (a, _) :: rest => rest.all (fun c => a < c.1) && Memory.wf rest

/-- The content of SRC (R22, R25): what the platform placed, or at an index nothing has written an unconstrained byte
(log 2). -/
def srcByte (s : State) (a : Nat) : Byte := (Memory.read? s.src a).getD (Config.srcContent a)

/-- The content of IN (R22, R24), likewise (log 2). -/
def inByte (s : State) (a : Nat) : Byte := (Memory.read? s.inp a).getD (Config.inContent a)

/-! ### The stream fetch -/

/-- R160 `Fetch(a)`: `none` is the failure `E_SRC_RANGE`. -/
def fetch (s : State) (a : Nat) : Option Byte := if a < s.srcSize then some (srcByte s a) else none

/-- The stream bytes from `a` on, `k` of them or up to the end of SRC. -/
def fetchRun (s : State) : Nat → Nat → List Byte
  | 0, _ => []
  | k + 1, a =>
    match fetch s a with
    | some b => b :: fetchRun s k (a + 1)
    | none => []

/-- The stream bytes at the cursor that a token can use: reads of SRC have no side effect (R44), so looking at bytes
past the token changes nothing (log 12). -/
def fetchWindow (s : State) : List Byte := fetchRun s Config.tokenMax s.dec.sc

/-! ### Failing and starting -/

/-- R183 `raise DecFail(code)`: the block's exception entry. Only the code and the status are written (R184). -/
def raiseDec (c : DecErr) (s : State) : State :=
  { s with dec := { s.dec with err := c, status := .failed } }

/-- R182 `raise EncFail(code)`. -/
def raiseEnc (c : EncErr) (s : State) : State :=
  { s with enc := { s.enc with err := c, status := .failed } }

/-- R33, R141: the start of a decode operation; with R188 the only way on from DONE and FAILED. OUT is not cleared. -/
def startDec (s : State) : State :=
  { s with dec := { s.dec with status := .running, err := .none, sc := s.dec.srcOff, oc := 0 } }

/-- R30: the register initialisation of a compress operation. -/
def initEnc (s : State) : State :=
  { s with enc := { s.enc with status := .running, err := .none, pos := 0, wp := 0 } }

/-- R30, R101: the start of a compress operation: initialise, then validate the input length. -/
def startEnc (s : State) : State :=
  if s.enc.inLen.toNat = 0 then raiseEnc .emptyInput (initEnc s)
  else if s.enc.inLen.toNat > Config.inMax then raiseEnc .inputTooLong (initEnc s)
  else initEnc s

/-- R143: the successful end of a decode operation. -/
def finishDec (s : State) : State := { s with dec := { s.dec with status := .done } }

/-! ### Parts of the token step -/

/-- R145 (and the re-check of R150): fail if `bytes` more bytes do not fit in OUT, else go on. -/
def withRoom (bytes : Nat) (s : State) (act : Result) : Result :=
  if s.dec.oc + bytes > Config.outCap then .next (raiseDec .outOverflow s) else act

/-- R146: the check `addr >= 65536`, which a 16-bit field never meets. -/
def withAddr (addr : Addr) (s : State) (act : Result) : Result :=
  if addr.toNat ≥ Config.outCap then .next (raiseDec .addrRange s) else act

/-- R156: the end of a successful token step: OUT and the free-value counter as the token left them, the stream cursor
past the token, the output cursor past the bytes it wrote. -/
def commit (size written : Nat) (out : Memory) (draws : Nat) (s : State) : State :=
  { s with out := out, draws := draws, dec := { s.dec with sc := s.dec.sc + size, oc := s.dec.oc + written } }

/-- Write these bytes at the output cursor and end the token step. -/
def putRun (size : Nat) (bs : List Byte) (s : State) : State :=
  commit size bs.length (Memory.writeRun s.out s.dec.oc bs) s.draws s

/-- `MemRead(OUT, i, 1)` when the operation has written the prefix `[0, written)` (R158): inside it the byte written,
outside it a fresh free byte (R159, U1). Answers the byte and the free-value counter after it. -/
def readOut (out : Memory) (written draws i : Nat) : Byte × Nat :=
  if i < written then
    match Memory.read? out i with
    | some b => (b, draws)
    | none => (Config.freeByte draws, draws + 1)
  else (Config.freeByte draws, draws + 1)

/-- R157: the byte-at-a-time copy loop from iteration `j` on, `n` iterations: read index `idx j`, write `f` of it at
`oc + j`. Answers OUT and the free-value counter after it. -/
def copyLoop (idx : Nat → Nat) (f : Byte → Byte) (oc : Nat) : Nat → Nat → Memory → Nat → Memory × Nat
  | 0, _, out, draws => (out, draws)
  | n + 1, j, out, draws =>
    let t := readOut out (oc + j) draws (idx j)
    copyLoop idx f oc n (j + 1) (Memory.write out (oc + j) (f t.1)) t.2

/-- R152 to R154: run the copy loop at the output cursor and end the token step. -/
def putCopy (size len : Nat) (idx : Nat → Nat) (f : Byte → Byte) (s : State) : State :=
  let r := copyLoop idx f s.dec.oc len 0 s.out s.draws
  commit size len r.1 r.2 s

/-! ### Emitting -/

/-- R8 `emit(v)`: append a byte to CS. -/
def emit (v : Byte) (s : State) : State :=
  { s with cs := Memory.write s.cs s.enc.wp v, enc := { s.enc with wp := s.enc.wp + 1 } }

/-- R114: emit bytes in order. -/
def emitAll : List Byte → State → State
  | [], s => s
  | b :: bs, s => emitAll bs (emit b s)

end Sys2Proof.Machine
end

