-- ==== Sys2Proof/Machine/Control.lean ====
section
/-! DEFINITION. The tokens that end the operation: the reserved type 7 (R155) and the terminator (R143). -/

namespace Sys2Proof.Machine

/-- R155, `Reserved7.FC`: the decoder failure `E_RESERVED_TYPE`; the second header byte is ignored. -/
def execReserved7FC (_b1 : Byte) (s : State) : Result := .next (raiseDec .reservedType s)
/-- R155, `Reserved7.FD`. -/
def execReserved7FD (_b1 : Byte) (s : State) : Result := .next (raiseDec .reservedType s)
/-- R155, `Reserved7.FE`. -/
def execReserved7FE (_b1 : Byte) (s : State) : Result := .next (raiseDec .reservedType s)

/-- R143, `Terminator`: DONE; both cursors and OUT stay. -/
def execTerminator (s : State) : Result := .next (finishDec s)

end Sys2Proof.Machine
end

