-- ==== Sys2Proof/Machine/Copies.lean ====
section
/-! DEFINITION. The back-reference tokens: CopyForward, CopyBitReversed, CopyBackward (R152 to R154). `h` is the header
size; the address is two bytes after it (R66). -/

namespace Sys2Proof.Machine

/-- R152, R153: the copy that reads upward from `addr`, writing each byte through `f`. -/
def forwardBody (h len : Nat) (addr : Addr) (f : Byte → Byte) (s : State) : Result :=
  withRoom len s <| withAddr addr s <|
    if addr.toNat + len > Config.outCap then .next (raiseDec .copyRange s)
    else .next (putCopy (h + 2) len (fun j => addr.toNat + j) f s)

/-- R154: the copy that reads downward from `addr`. The check `addr - len + 1 < 0` is exact (R7). -/
def backwardBody (h len : Nat) (addr : Addr) (s : State) : Result :=
  withRoom len s <| withAddr addr s <|
    if (addr.toNat : Int) - len + 1 < 0 then .next (raiseDec .backUnderflow s)
    else .next (putCopy (h + 2) len (fun j => addr.toNat - j) id s)

/-- R152, `CopyForward.S`. -/
def execCopyForwardS (len : Nat) (addr : Addr) (s : State) : Result := forwardBody 1 len addr id s
/-- R152, `CopyForward.L`. -/
def execCopyForwardL (len : Nat) (addr : Addr) (s : State) : Result := forwardBody 2 len addr id s
/-- R153, `CopyBitReversed.S`. -/
def execCopyBitReversedS (len : Nat) (addr : Addr) (s : State) : Result := forwardBody 1 len addr bitrev s
/-- R153, `CopyBitReversed.L`. -/
def execCopyBitReversedL (len : Nat) (addr : Addr) (s : State) : Result := forwardBody 2 len addr bitrev s
/-- R154, `CopyBackward.S`. -/
def execCopyBackwardS (len : Nat) (addr : Addr) (s : State) : Result := backwardBody 1 len addr s
/-- R154, `CopyBackward.L`. -/
def execCopyBackwardL (len : Nat) (addr : Addr) (s : State) : Result := backwardBody 2 len addr s

end Sys2Proof.Machine
end

