-- ==== Sys2Proof/Machine/Runs.lean ====
section
/-! DEFINITION. The tokens that write bytes of the stream: Literal, Fill, WordFill, Sequence (R148 to R151). `h` is the
header size, 1 in the short form and 2 in the long form; the form makes no other difference (R147). -/

namespace Sys2Proof.Machine

/-- R148. The payload range check is the fetch's (log 12). -/
def literalBody (h len : Nat) (bytes : List Byte) (s : State) : Result :=
  withRoom len s (.next (putRun (h + len) bytes s))

/-- R149. -/
def fillBody (h len : Nat) (v : Byte) (s : State) : Result :=
  withRoom len s (.next (putRun (h + 1) (fillBytes len v) s))

/-- R150: the capacity is checked with `len` (stage 4), then again with `2 * len`. -/
def wordFillBody (h len : Nat) (v0 v1 : Byte) (s : State) : Result :=
  withRoom len s (withRoom (2 * len) s (.next (putRun (h + 2) (wordFillBytes len v0 v1) s)))

/-- R151. -/
def sequenceBody (h len : Nat) (v : Byte) (s : State) : Result :=
  withRoom len s (.next (putRun (h + 1) (sequenceBytes len v) s))

/-- R148, `Literal.S`. -/
def execLiteralS (len : Nat) (bytes : List Byte) (s : State) : Result := literalBody 1 len bytes s
/-- R148, `Literal.L`. -/
def execLiteralL (len : Nat) (bytes : List Byte) (s : State) : Result := literalBody 2 len bytes s
/-- R149, `Fill.S`. -/
def execFillS (len : Nat) (v : Byte) (s : State) : Result := fillBody 1 len v s
/-- R149, `Fill.L`. -/
def execFillL (len : Nat) (v : Byte) (s : State) : Result := fillBody 2 len v s
/-- R150, `WordFill.S`. -/
def execWordFillS (len : Nat) (v0 v1 : Byte) (s : State) : Result := wordFillBody 1 len v0 v1 s
/-- R150, `WordFill.L`. -/
def execWordFillL (len : Nat) (v0 v1 : Byte) (s : State) : Result := wordFillBody 2 len v0 v1 s
/-- R151, `Sequence.S`. -/
def execSequenceS (len : Nat) (v : Byte) (s : State) : Result := sequenceBody 1 len v s
/-- R151, `Sequence.L`. -/
def execSequenceL (len : Nat) (v : Byte) (s : State) : Result := sequenceBody 2 len v s

end Sys2Proof.Machine
end

