-- ==== Sys2Proof/Machine/Dispatch.lean ====
section
/-! DEFINITION. R147: the dispatcher, one arm per token. -/

namespace Sys2Proof.Machine

def exec (i : Instr) (s : State) : Host.Outcome State Fault Refusal :=
  match i with
  | .literalS len bytes => Sys2Proof.Machine.execLiteralS len bytes s
  | .fillS len v => Sys2Proof.Machine.execFillS len v s
  | .wordFillS len v0 v1 => Sys2Proof.Machine.execWordFillS len v0 v1 s
  | .sequenceS len v => Sys2Proof.Machine.execSequenceS len v s
  | .copyForwardS len addr => Sys2Proof.Machine.execCopyForwardS len addr s
  | .copyBitReversedS len addr => Sys2Proof.Machine.execCopyBitReversedS len addr s
  | .copyBackwardS len addr => Sys2Proof.Machine.execCopyBackwardS len addr s
  | .literalL len bytes => Sys2Proof.Machine.execLiteralL len bytes s
  | .fillL len v => Sys2Proof.Machine.execFillL len v s
  | .wordFillL len v0 v1 => Sys2Proof.Machine.execWordFillL len v0 v1 s
  | .sequenceL len v => Sys2Proof.Machine.execSequenceL len v s
  | .copyForwardL len addr => Sys2Proof.Machine.execCopyForwardL len addr s
  | .copyBitReversedL len addr => Sys2Proof.Machine.execCopyBitReversedL len addr s
  | .copyBackwardL len addr => Sys2Proof.Machine.execCopyBackwardL len addr s
  | .reserved7FC b1 => Sys2Proof.Machine.execReserved7FC b1 s
  | .reserved7FD b1 => Sys2Proof.Machine.execReserved7FD b1 s
  | .reserved7FE b1 => Sys2Proof.Machine.execReserved7FE b1 s
  | .terminator => Sys2Proof.Machine.execTerminator s

end Sys2Proof.Machine
end

