-- ==== Sys2Proof/Machine/Decoder.lean ====
section
/-! DEFINITION. DEC's token step (R142): fetch and decode the token at the cursor, then execute it. -/

namespace Sys2Proof.Machine

/-- R142, R186. A header that runs off SRC fails with `E_SRC_RANGE` (R144, R160). A payload or address that runs off SRC
fails with `E_SRC_RANGE` too, but only after the capacity check of stage 4 (R145, R186). -/
def decStep (s : State) : Result :=
  match decode (fetchWindow s) with
  | .ok i _ => exec i s
  | .headerCut => .next (raiseDec .srcRange s)
  | .payloadCut len => withRoom len s (.next (raiseDec .srcRange s))

/-- A turn of DEC: a token step while RUNNING (R142), nothing otherwise (R212). -/
def decTurn (s : State) : Result := if s.dec.status = .running then decStep s else .next s

end Sys2Proof.Machine
end

