-- ==== Sys2Proof/Machine/Matchers.lean ====
section
/-! DEFINITION. The encoder's strategies and selector (R103 to R113), as functions of the input `g` (the byte of IN at an
index) and its length `n`. -/

namespace Sys2Proof.Machine

/-- How many of the indices `k, k + 1, ...` pass the guard before the first that does not, counted from 0 on and at most
to `k + fuel`: the measuring loop of R105 to R112. -/
def countWhile (p : Nat → Bool) : Nat → Nat → Nat
  | 0, k => k
  | fuel + 1, k => if p k then countWhile p fuel (k + 1) else k

/-- R105, strategy 1: the run of bytes equal to the one at `pos2`. -/
def byteRun (g : Nat → Byte) (n pos2 : Nat) : Nat :=
  countWhile (fun l => pos2 + l < n && g (pos2 + l) == g pos2) Config.runWin 0

/-- R106, strategy 2: the repeats of the pair at `pos2`; 0 when no whole pair exists. -/
def wordRun (g : Nat → Byte) (n pos2 : Nat) : Nat :=
  if pos2 + 1 ≥ n then 0
  else
    countWhile
      (fun r => pos2 + 2 * r + 1 < n && g (pos2 + 2 * r) == g pos2 && g (pos2 + 2 * r + 1) == g (pos2 + 1))
      Config.wordWin 0

/-- R107, strategy 3: the run counting up by 1 modulo 256. -/
def arithRun (g : Nat → Byte) (n pos2 : Nat) : Nat :=
  countWhile (fun l => pos2 + l < n && g (pos2 + l) == g pos2 + BitVec.ofNat 8 l) Config.runWin 0

/-- R110, strategy 4a: the forward match. -/
def fwdMatch (g : Nat → Byte) (n pos2 pos3 : Nat) : Nat :=
  countWhile (fun l => pos3 + l < pos2 && pos2 + l < n && g (pos3 + l) == g (pos2 + l)) Config.copyWin 0

/-- R111, strategy 4b: the bit-reversed match. -/
def revMatch (g : Nat → Byte) (n pos2 pos3 : Nat) : Nat :=
  countWhile (fun l => pos3 + l < pos2 && pos2 + l < n && g (pos3 + l) == bitrev (g (pos2 + l))) Config.copyWin 0

/-- R112, strategy 4c: the backward match; the guard `pos3 - L >= 0` is `l ≤ pos3`. -/
def bwdMatch (g : Nat → Byte) (n pos2 pos3 : Nat) : Nat :=
  countWhile (fun l => l ≤ pos3 && pos2 + l < n && g (pos3 - l) == g (pos2 + l)) Config.copyWin 0

/-- R104: what the selector returns: a token with its operands. -/
inductive Match where
  | fill (v : Byte) (len : Nat)
  | wordFill (v0 v1 : Byte) (len : Nat)
  | sequence (v : Byte) (len : Nat)
  | copyForward (addr len : Nat)
  | copyBitReversed (addr len : Nat)
  | copyBackward (addr len : Nat)
deriving DecidableEq, Repr

/-- R108: strategy 4 at one `pos3`: 4a beats 4b beats 4c. -/
def backMatch (g : Nat → Byte) (n pos2 pos3 : Nat) : Option Match :=
  if fwdMatch g n pos2 pos3 ≥ Config.minCopy then some (.copyForward pos3 (fwdMatch g n pos2 pos3))
  else if revMatch g n pos2 pos3 ≥ Config.minCopy then some (.copyBitReversed pos3 (revMatch g n pos2 pos3))
  else if bwdMatch g n pos2 pos3 ≥ Config.minCopy then some (.copyBackward pos3 (bwdMatch g n pos2 pos3))
  else none

/-- R108: the first `pos3` from the given one on, in increasing order, that yields a match; `fuel` positions are left. -/
def backSearch (g : Nat → Byte) (n pos2 : Nat) : Nat → Nat → Option Match
  | 0, _ => none
  | fuel + 1, pos3 =>
    match backMatch g n pos2 pos3 with
    | some m => some m
    | none => backSearch g n pos2 fuel (pos3 + 1)

/-- R104: the selector. The first strategy that qualifies, in the fixed priority order, wins; `none` is the literal
fallback (R113). -/
def select (g : Nat → Byte) (n pos2 : Nat) : Option Match :=
  if byteRun g n pos2 ≥ Config.minFill then some (.fill (g pos2) (byteRun g n pos2))
  else if wordRun g n pos2 ≥ Config.minWord then some (.wordFill (g pos2) (g (pos2 + 1)) (wordRun g n pos2))
  else if arithRun g n pos2 ≥ Config.minSeq then some (.sequence (g pos2) (arithRun g n pos2))
  else backSearch g n pos2 pos2 0

/-- R103: the outer scan from `pos2` on, `fuel` candidate positions left: where it ends, and the match found there. -/
def scan (g : Nat → Byte) (n : Nat) : Nat → Nat → Nat × Option Match
  | 0, pos2 => (pos2, none)
  | fuel + 1, pos2 =>
    if pos2 < n then
      match select g n pos2 with
      | some m => (pos2, some m)
      | none => scan g n fuel (pos2 + 1)
    else (pos2, none)

/-- R124 `Consumed(m)`: the input bytes a match covers. -/
def Match.consumed : Match → Nat
  | .fill _ len => len
  | .wordFill _ _ len => 2 * len
  | .sequence _ len => len
  | .copyForward _ len => len
  | .copyBitReversed _ len => len
  | .copyBackward _ len => len

/-- R116: the address bytes of an input index, high byte first. -/
def posBytes (pos3 : Nat) : List Byte := [BitVec.ofNat 8 (pos3 / 256), BitVec.ofNat 8 (pos3 % 256)]

/-- R118 to R123: the stream bytes of a match. -/
def Match.bytes : Match → List Byte
  | .fill v len => hdrEncode .fill len ++ [v]
  | .wordFill v0 v1 len => hdrEncode .wordFill len ++ [v0, v1]
  | .sequence v len => hdrEncode .sequence len ++ [v]
  | .copyForward addr len => hdrEncode .copyForward len ++ posBytes addr
  | .copyBitReversed addr len => hdrEncode .copyBitReversed len ++ posBytes addr
  | .copyBackward addr len => hdrEncode .copyBackward len ++ posBytes addr

/-- The input bytes `g a, g (a + 1), ...`, `k` of them. -/
def inputRun (g : Nat → Byte) : Nat → Nat → List Byte
  | 0, _ => []
  | k + 1, a => g a :: inputRun g k (a + 1)

/-- R117 `EmitLiteral(pos, pos2)`: the pending literal's stream bytes; skipped if empty. -/
def literalBytes (g : Nat → Byte) (pos pos2 : Nat) : List Byte :=
  if pos2 > pos then hdrEncode .literal (pos2 - pos) ++ inputRun g (pos2 - pos) pos else []

/-- The stream bytes of a scan's match, if any. -/
def matchBytes : Option Match → List Byte
  | some m => m.bytes
  | none => []

/-- R124, R126: the input bytes of a scan's match, 0 if there is none. -/
def matchConsumed : Option Match → Nat
  | some m => m.consumed
  | none => 0

/-- R102, R114: one outer iteration from `pos`: the new `pos` and the stream bytes it emits. -/
def iteration (g : Nat → Byte) (n pos : Nat) : Nat × List Byte :=
  let r := scan g n Config.scanWin pos
  (r.1 + matchConsumed r.2, literalBytes g pos r.1 ++ matchBytes r.2)

/-- R128: the whole operation as one function: the stream from `pos` on, terminator included, with `fuel` iterations
left (`n` are enough, R135). -/
def streamFrom (g : Nat → Byte) (n : Nat) : Nat → Nat → List Byte
  | 0, _ => [Config.term]
  | fuel + 1, pos =>
    if pos < n then (iteration g n pos).2 ++ streamFrom g n fuel (iteration g n pos).1 else [Config.term]

/-- R100 `Compress(input)`: the token stream of `g 0, ..., g (n - 1)`. -/
def compress (g : Nat → Byte) (n : Nat) : List Byte := streamFrom g n n 0

end Sys2Proof.Machine
end

