-- ==== Sys2Proof/Machine/Encoder.lean ====
section
/-! DEFINITION. ENC's step: one outer iteration (R102, R128), then the terminator (R129). -/

namespace Sys2Proof.Machine

/-- R16: `n`, the number of valid bytes in IN. -/
def inLength (s : State) : Nat := s.enc.inLen.toNat

/-- R102 `EncIteration`: emit the pending literal and the match, if any, and move `enc.pos` past them. -/
def encIteration (s : State) : State :=
  let r := iteration (inByte s) (inLength s) s.enc.pos
  let t := emitAll r.2 s
  { t with enc := { t.enc with pos := r.1 } }

/-- R129: append the terminator; the unit is DONE. -/
def encFinish (s : State) : State :=
  let t := emit Config.term s
  { t with enc := { t.enc with status := .done } }

/-- R102, R127, R129: an iteration while `enc.pos < n`, then the terminator. -/
def encStep (s : State) : Result :=
  if s.enc.pos < inLength s then .next (encIteration s) else .next (encFinish s)

/-- A turn of ENC: a step while RUNNING, nothing otherwise (R212). -/
def encTurn (s : State) : Result := if s.enc.status = .running then encStep s else .next s

end Sys2Proof.Machine
end

