-- ==== Sys2Proof/Machine/HostPort.lean ====
section
/-! DEFINITION. What the host's moves do (R29 to R36, R210, R211). -/

namespace Sys2Proof.Machine

/-- What a host read shows: a value the spec defines, or one it leaves unspecified, of so many bits. -/
inductive View where
  | known (v : Nat)
  | unspecified (width : Nat)
deriving DecidableEq, Repr

/-- A value known while the unit is not RUNNING; while it is, the host sees work in progress (U10). -/
def quietView (st : UnitStatus) (width v : Nat) : View := if st = .running then .unspecified width else .known v

/-- R29, R32, R35, U10, R185: the registers as the host reads them. CTRL reads as 0; so does every unlisted number (U13).
`DEC_OUT_LEN` is unspecified after a failure too (R185). -/
def regView (s : State) (u : UnitId) (no : Nat) : View :=
  match u, no with
  | .enc, 1 => .known (statusCode s.enc.status)
  | .enc, 2 => quietView s.enc.status 2 (encErrCode s.enc.err)
  | .enc, 3 => .known s.enc.inLen.toNat
  | .enc, 4 => quietView s.enc.status 17 s.enc.wp
  | .dec, 1 => .known (statusCode s.dec.status)
  | .dec, 2 => quietView s.dec.status 3 (decErrCode s.dec.err)
  | .dec, 3 => .known s.dec.srcOff
  | .dec, 4 => if s.dec.status = .failed then .unspecified 17 else quietView s.dec.status 17 s.dec.oc
  | _, _ => .known 0

/-- A produced byte, defined only on DONE and inside the produced length (R162, R224, U9). -/
def resultView (st : UnitStatus) (m : Memory) (length a : Nat) : View :=
  if st = .done ∧ a < length then
    match Memory.read? m a with
    | some b => .known b.toNat
    | none => .unspecified 8
  else .unspecified 8

/-- The spaces as the host reads them (R22 to R26, R37, R224). -/
def memView (s : State) (sp : Space) (a : Nat) : View :=
  match sp with
  | .src => .known (srcByte s a).toNat
  | .inp => .known (inByte s a).toNat
  | .out => resultView s.dec.status s.out s.dec.oc a
  | .cs => resultView s.enc.status s.cs s.enc.wp a

/-- Complete a host read: a known value is returned; an unspecified one is a fresh free value of its width (log 4). -/
def returnView (v : View) (s : State) : State :=
  match v with
  | .known x => { s with hostRdata := x }
  | .unspecified w => { s with hostRdata := Config.freeView s.draws % 2 ^ w, draws := s.draws + 1 }

/-- R22: the number of bytes a space has. -/
def spaceSize (s : State) (sp : Space) : Nat :=
  match sp with
  | .src => s.srcSize
  | .out => Config.outCap
  | .inp => Config.inMax
  | .cs => Config.csSize

/-- R22: the unit that owns a space. -/
def spaceOwner (sp : Space) : UnitId :=
  match sp with
  | .src => .dec
  | .out => .dec
  | .inp => .enc
  | .cs => .enc

/-- Is the unit RUNNING? -/
def unitRunning (s : State) (u : UnitId) : Bool :=
  match u with
  | .enc => s.enc.status == .running
  | .dec => s.dec.status == .running

/-- R31: write `ENC_IN_LEN`; its field is bits 16:0. -/
def setInLen (v : Nat) (s : State) : State := { s with enc := { s.enc with inLen := BitVec.ofNat 17 v } }

/-- R34: write `DEC_SRC_OFF`; its field is the low `SRC_AW` bits. -/
def setSrcOff (v : Nat) (s : State) : State :=
  { s with dec := { s.dec with srcOff := v % 2 ^ Config.srcAw s.srcSize } }

/-- A host write of a register. Bit 0 of CTRL is START (R30, R33): writing 0 does nothing, writing 1 while RUNNING is no
move of the host (U3). A parameter register of a RUNNING unit is the unit's (R36, U4). Every other register is read-only
or unlisted and ignores the write (R29, U13). -/
def hostWriteReg (u : UnitId) (no v : Nat) (s : State) : Result :=
  match u, no with
  | .enc, 0 =>
    if v % 2 = 0 then .next s
    else if unitRunning s .enc then .refused (.startWhileRunning .enc) else .next (startEnc s)
  | .dec, 0 =>
    if v % 2 = 0 then .next s
    else if unitRunning s .dec then .refused (.startWhileRunning .dec) else .next (startDec s)
  | .enc, 3 => if unitRunning s .enc then .refused (.ownedWhileRunning .enc) else .next (setInLen v s)
  | .dec, 3 => if unitRunning s .dec then .refused (.ownedWhileRunning .dec) else .next (setSrcOff v s)
  | _, _ => .next s

/-- Store a byte in a space. -/
def putMem (sp : Space) (a : Nat) (b : Byte) (s : State) : State :=
  match sp with
  | .src => { s with src := Memory.write s.src a b }
  | .out => { s with out := Memory.write s.out a b }
  | .inp => { s with inp := Memory.write s.inp a b }
  | .cs => { s with cs := Memory.write s.cs a b }

/-- R36, R45, R49, U4: the host (or the platform) acts on a byte of a unit's buffers, read or write, only while that unit
is not RUNNING: a RUNNING unit is the only agent that accesses its spaces. An index the space does not have is the fault
(log 9). -/
def hostAccess (sp : Space) (a : Nat) (s : State) (act : Result) : Result :=
  if a ≥ spaceSize s sp then .fault (.noSuchIndex sp a)
  else if unitRunning s (spaceOwner sp) then .refused (.ownedWhileRunning (spaceOwner sp))
  else act

/-- A host (or platform) write of a buffer byte. -/
def hostWriteMem (sp : Space) (a : Nat) (b : Byte) (s : State) : Result := hostAccess sp a s (.next (putMem sp a b s))

/-- A host read of a buffer byte. -/
def hostReadMem (sp : Space) (a : Nat) (s : State) : Result :=
  hostAccess sp a s (.next (returnView (memView s sp a) s))

/-- R210, R211: reset, at any moment: the registers of both units take their reset values; the spaces are untouched
(log 14). -/
def applyReset (s : State) : State := { s with dec := Dec.reset, enc := Enc.reset }

/-- A move of the host. -/
def hostStep (c : HostCmd) (s : State) : Result :=
  match c with
  | .writeReg u no v => hostWriteReg u no v s
  | .readReg u no => .next (returnView (regView s u no) s)
  | .writeMem sp a b => hostWriteMem sp a b s
  | .readMem sp a => hostReadMem sp a s
  | .reset => .next (applyReset s)

end Sys2Proof.Machine
end

