-- ==== Sys2Proof/Machine/Schedule.lean ====
section
/-! DEFINITION. Which agent moves next (R10, R49, R197; log 5). -/

namespace Sys2Proof.Machine

/-- The next move: the agenda's first; with an empty agenda a turn of DEC if it is RUNNING, else of ENC if it is RUNNING,
else none. The two units share nothing, so their order is immaterial (R49). -/
def nextEvent (s : State) : Option Event :=
  match s.agenda with
  | e :: _ => some e
  | [] =>
    if s.dec.status = .running then some .dec
    else if s.enc.status = .running then some .enc
    else none

/-- The state once its next move has been taken from the agenda. -/
def popAgenda (s : State) : State := { s with agenda := s.agenda.tail }

end Sys2Proof.Machine
end

