-- ==== Sys2Proof/Machine/Step.lean ====
section
/-! DEFINITION. One step of the block: one move of one agent (R10, R128, R166), and where the next token is stored. -/

namespace Sys2Proof.Machine

/-- One step. With no move pending and no unit RUNNING nothing happens (R212). -/
def step (s : State) : Host.Outcome State Fault Refusal :=
  match nextEvent s with
  | some (.host c) => hostStep c (popAgenda s)
  | some .dec => decTurn (popAgenda s)
  | some .enc => encTurn (popAgenda s)
  | none => .next s

/-- `s` with an instruction where DEC fetches its next token: its bytes at `dec.sc` (with zeros above them, up to the
longest token), SRC large enough to hold them, DEC RUNNING and the next to move (log 7). -/
def State.withFetchWord (s : State) (nbits w : Nat) : State :=
  { s with
    src := Memory.writeRun s.src s.dec.sc (tableBytes nbits w)
    srcSize := max s.srcSize (s.dec.sc + Config.tokenMax)
    agenda := []
    dec := { s.dec with status := .running } }

end Sys2Proof.Machine
end

