-- ==== Sys2Proof/Safety.lean ====
section
/-! DEFINITION. What counts as a safe state and a safe run, in the terms the statements use. -/

namespace Sys2Proof.Machine

/-- Every index a space lists is below `n`. -/
def Memory.below (m : Memory) (n : Nat) : Bool := m.all fun c => c.1 < n

/-- The two input spaces hold their canonical form inside their ranges (R22), and so does OUT; CS holds its canonical
form. -/
structure SpacesOk (s : State) : Prop where
  src_wf : Memory.wf s.src = true
  out_wf : Memory.wf s.out = true
  inp_wf : Memory.wf s.inp = true
  cs_wf : Memory.wf s.cs = true
  src_in : Memory.below s.src s.srcSize = true
  out_in : Memory.below s.out Config.outCap = true
  inp_in : Memory.below s.inp Config.inMax = true

/-- The registers hold legal values (R11, R13, R15, R19): an error code exactly when FAILED, cursors inside their
widths, and every byte of the written part of OUT (R23) listed. -/
structure RegistersOk (s : State) : Prop where
  dec_err : s.dec.err = .none ↔ s.dec.status ≠ .failed
  enc_err : s.enc.err = .none ↔ s.enc.status ≠ .failed
  oc_le : s.dec.oc ≤ Config.outCap
  written : ∀ a, a < s.dec.oc → (Memory.read? s.out a).isSome = true
  srcOff_lt : s.dec.srcOff < 2 ^ Config.srcAw s.srcSize
  sc_le : s.dec.sc ≤ 2 ^ Config.srcAw s.srcSize

/-- The invariant of the block: spaces and registers. -/
structure BlockInv (s : State) : Prop where
  spaces : SpacesOk s
  registers : RegistersOk s

/-- The invariant of a compress operation (R17, R18, R101, R133): while RUNNING the input length has been accepted, the
cursor has not passed it, and the stream is at most one byte longer per 36 bytes consumed, plus 2 after the last
iteration. Whatever the status, the cursors stay below the bounds of the largest input, and CS below its index range. -/
structure EncInv (s : State) : Prop where
  accepted : s.enc.status = .running → 1 ≤ inLength s ∧ inLength s ≤ Config.inMax
  pos_le : s.enc.status = .running → s.enc.pos ≤ inLength s
  wp_running : s.enc.status = .running →
    s.enc.wp ≤ s.enc.pos + s.enc.pos / 36 + (if s.enc.pos = inLength s then 2 else 0)
  pos_bound : s.enc.pos ≤ Config.inMax
  wp_bound : s.enc.wp ≤ Config.csBound Config.inMax
  cs_in : Memory.below s.cs Config.csSize = true

/-- DEC will move next and is RUNNING (R142). -/
def decReady (s : State) : Prop := nextEvent s = some .dec ∧ s.dec.status = .running

/-- Everything but DEC's status, error code and cursors, OUT and the free-value counter is as before: what a token step
may touch (R44, R166). -/
def sameOutsideDec (s t : State) : Prop :=
  t.enc = s.enc ∧ t.src = s.src ∧ t.inp = s.inp ∧ t.cs = s.cs ∧ t.srcSize = s.srcSize ∧ t.agenda = s.agenda
    ∧ t.hostRdata = s.hostRdata ∧ t.dec.srcOff = s.dec.srcOff

/-- Every byte of OUT outside `[a, a + k)` is as before. -/
def outSameOutside (s t : State) (a k : Nat) : Prop :=
  ∀ x, ¬ (a ≤ x ∧ x < a + k) → Memory.read? t.out x = Memory.read? s.out x

/-- R156: the token step ended normally: DEC still in the same status with the same error code, both cursors moved, and
nothing outside them and the `written` bytes of OUT changed. -/
def tokenDone (size written : Nat) (s t : State) : Prop :=
  t.dec.status = s.dec.status ∧ t.dec.err = s.dec.err ∧ t.dec.sc = s.dec.sc + size ∧ t.dec.oc = s.dec.oc + written
    ∧ sameOutsideDec s t ∧ outSameOutside s t s.dec.oc written

/-- ENC will move next and is RUNNING (R128). -/
def encReady (s : State) : Prop := nextEvent s = some .enc ∧ s.enc.status = .running

/-- R183: the state after `raise DecFail(c)`: the code and the status written, nothing else. -/
def decFailed (c : DecErr) (s : State) : State := { s with dec := { s.dec with err := c, status := .failed } }

/-- What a copy of `len` bytes from the read indices `idx` through `f` leaves in OUT (R157 to R159). Each destination byte
is `f` of the byte at its read index, as OUT ends up, when that index lies in the part written before the read; else it
is `f` of a free byte drawn by this token. (A byte of the written part that is not listed is free too; no run reaches such a
state.) -/
def copiedBytes (idx : Nat → Nat) (f : Byte → Byte) (len : Nat) (s t : State) : Prop :=
  ∀ j, j < len →
    (∃ c, idx j < s.dec.oc + j ∧ Memory.read? t.out (idx j) = some c ∧
      Memory.read? t.out (s.dec.oc + j) = some (f c)) ∨
    ∃ d, (idx j < s.dec.oc + j → idx j < s.dec.oc ∧ Memory.read? s.out (idx j) = none) ∧ s.draws ≤ d ∧ d < t.draws ∧
      Memory.read? t.out (s.dec.oc + j) = some (f (Config.freeByte d))

/-- R23: every byte of the written part of OUT is listed. -/
def outWritten (s : State) : Prop := ∀ a, a < s.dec.oc → (Memory.read? s.out a).isSome = true

/-- The token's form and operands: both header forms of a command, for statements that cover both. -/
def isLiteral (i : Instr) (len : Nat) (bytes : List Byte) : Prop := i = .literalS len bytes ∨ i = .literalL len bytes
/-- Both forms of Fill. -/
def isFill (i : Instr) (len : Nat) (v : Byte) : Prop := i = .fillS len v ∨ i = .fillL len v
/-- Both forms of WordFill. -/
def isWordFill (i : Instr) (len : Nat) (v0 v1 : Byte) : Prop := i = .wordFillS len v0 v1 ∨ i = .wordFillL len v0 v1
/-- Both forms of Sequence. -/
def isSequence (i : Instr) (len : Nat) (v : Byte) : Prop := i = .sequenceS len v ∨ i = .sequenceL len v
/-- Both forms of CopyForward. -/
def isCopyForward (i : Instr) (len : Nat) (addr : Addr) : Prop := i = .copyForwardS len addr ∨ i = .copyForwardL len addr
/-- Both forms of CopyBitReversed. -/
def isCopyBitReversed (i : Instr) (len : Nat) (addr : Addr) : Prop :=
  i = .copyBitReversedS len addr ∨ i = .copyBitReversedL len addr
/-- Both forms of CopyBackward. -/
def isCopyBackward (i : Instr) (len : Nat) (addr : Addr) : Prop :=
  i = .copyBackwardS len addr ∨ i = .copyBackwardL len addr
/-- The three reserved tokens. -/
def isReserved (i : Instr) (b1 : Byte) : Prop := i = .reserved7FC b1 ∨ i = .reserved7FD b1 ∨ i = .reserved7FE b1

/-- `l` is the largest length up to `win` with `ok` at every index below it: the closed form of a
matcher (R105 to R112). -/
def isLongest (ok : Nat → Prop) (win l : Nat) : Prop :=
  l ≤ win ∧ (∀ j, j < l → ok j) ∧ (l < win → ¬ ok l)

/-- The stream bytes `bs` stand in SRC from index `a` on. -/
def streamAt (s : State) (a : Nat) (bs : List Byte) : Prop := ∀ k, k < bs.length → fetch s (a + k) = bs[k]?

/-- The token a match stands for, in canonical form: the short header iff the length is at most 32 (R115). -/
def Match.token : Match → Instr
  | .fill v len => if len ≤ Config.shortMax then .fillS len v else .fillL len v
  | .wordFill v0 v1 len => if len ≤ Config.shortMax then .wordFillS len v0 v1 else .wordFillL len v0 v1
  | .sequence v len => if len ≤ Config.shortMax then .sequenceS len v else .sequenceL len v
  | .copyForward addr len =>
    if len ≤ Config.shortMax then .copyForwardS len (BitVec.ofNat 16 addr) else .copyForwardL len (BitVec.ofNat 16 addr)
  | .copyBitReversed addr len =>
    if len ≤ Config.shortMax then .copyBitReversedS len (BitVec.ofNat 16 addr)
    else .copyBitReversedL len (BitVec.ofNat 16 addr)
  | .copyBackward addr len =>
    if len ≤ Config.shortMax then .copyBackwardS len (BitVec.ofNat 16 addr)
    else .copyBackwardL len (BitVec.ofNat 16 addr)

/-- The contents of a space. -/
def spaceOf (s : State) : Space → Memory
  | .src => s.src
  | .out => s.out
  | .inp => s.inp
  | .cs => s.cs

/-- R29, R32, R35: the register `no` of unit `u` has the defined value `v` now. -/
def registerShows (s : State) (u : UnitId) (no v : Nat) : Prop :=
  (no = 0 ∧ v = 0) ∨
  (u = .enc ∧ no = 1 ∧ v = statusCode s.enc.status) ∨
  (u = .enc ∧ no = 2 ∧ s.enc.status ≠ .running ∧ v = encErrCode s.enc.err) ∨
  (u = .enc ∧ no = 3 ∧ v = s.enc.inLen.toNat) ∨
  (u = .enc ∧ no = 4 ∧ s.enc.status ≠ .running ∧ v = s.enc.wp) ∨
  (u = .dec ∧ no = 1 ∧ v = statusCode s.dec.status) ∨
  (u = .dec ∧ no = 2 ∧ s.dec.status ≠ .running ∧ v = decErrCode s.dec.err) ∨
  (u = .dec ∧ no = 3 ∧ v = s.dec.srcOff) ∨
  (u = .dec ∧ no = 4 ∧ s.dec.status ≠ .running ∧ s.dec.status ≠ .failed ∧ v = s.dec.oc) ∨
  (4 < no ∧ v = 0)

/-- R50, R129, R162, R224: the byte of a space that something stored at `a` is defined for the host: the input spaces, and
the produced part of the output spaces on DONE. -/
def byteShows (s : State) (sp : Space) (a : Nat) : Prop :=
  sp = .src ∨ sp = .inp ∨ (sp = .out ∧ s.dec.status = .done ∧ a < s.dec.oc) ∨
    (sp = .cs ∧ s.enc.status = .done ∧ a < s.enc.wp)

/-- U10, R185: the register `no` of unit `u` has no defined value now; its width is `w` bits. -/
def registerOpen (s : State) (u : UnitId) (no w : Nat) : Prop :=
  (u = .enc ∧ no = 2 ∧ s.enc.status = .running ∧ w = 2) ∨
  (u = .enc ∧ no = 4 ∧ s.enc.status = .running ∧ w = 17) ∨
  (u = .dec ∧ no = 2 ∧ s.dec.status = .running ∧ w = 3) ∨
  (u = .dec ∧ no = 4 ∧ (s.dec.status = .running ∨ s.dec.status = .failed) ∧ w = 17)

end Sys2Proof.Machine
end

