-- ==== Sys2Proof/Certificates/Slice0/Obligations.lean ====
section
/-! DEFINITION. The statements for the provers. Each docstring names the rules it formalises. -/

open Sys2Proof Sys2Proof.Machine

/-! ### Encoding -/

/-- R61 to R66: every well-formed token, at every operand value, decodes from its encoding, whatever follows. -/
def Obligations.DecodeEncodeRoundTrip : Prop :=
  ∀ (i : Instr) (rest : List Byte), i.wf = true → decode (encode i ++ rest) = .ok i rest

/-- R63, R69: what the decoder reads is a well-formed token, and its encoding is exactly the bytes read; so no two byte
strings stand for one token. -/
def Obligations.EncodeDecodeRoundTrip : Prop :=
  ∀ (bs : List Byte) (i : Instr) (rest : List Byte),
    decode bs = .ok i rest → i.wf = true ∧ encode i ++ rest = bs

/-- R69, R142: the decoder gives up only for want of bytes: with no first byte, with a long header's first byte alone, or
inside the payload of a well-formed token of the length it names. -/
def Obligations.DecodeStopsOnlyWhenBytesEnd : Prop :=
  (∀ bs : List Byte, decode bs = .headerCut ↔ bs = [] ∨ ∃ b0, bs = [b0] ∧ b0 ≠ 0xFF#8 ∧ b0.extractLsb 7 5 = 7#3) ∧
  ∀ (bs : List Byte) (len : Nat), decode bs = .payloadCut len →
    ∃ (i : Instr) (more : List Byte) (w : Nat),
      i.wf = true ∧ i.lengths = some (len, w) ∧ more ≠ [] ∧ encode i = bs ++ more

/-- R61 to R63, R68: words written out bit by bit from the encodings, one for every row of the opcode map, decode to the
tokens they stand for. -/
def Obligations.WordsOfTheSpecDecode : Prop :=
  decode [0b00000001#8, 0x01#8, 0x02#8] = .ok (.literalS 2 [0x01#8, 0x02#8]) [] ∧
  decode [0b11100000#8, 0b00000001#8, 0xFF#8, 0x07#8] = .ok (.literalL 2 [0xFF#8, 0x07#8]) [] ∧
  decode [0b00100011#8, 0x05#8] = .ok (.fillS 4 0x05#8) [] ∧
  decode [0b11100101#8, 0b00000000#8, 0xAA#8] = .ok (.fillL 257 0xAA#8) [] ∧
  decode [0b01000010#8, 0x01#8, 0x05#8] = .ok (.wordFillS 3 0x01#8 0x05#8) [] ∧
  decode [0b11101010#8, 0b00000000#8, 0x12#8, 0x34#8] = .ok (.wordFillL 513 0x12#8 0x34#8) [] ∧
  decode [0b01100100#8, 0xFE#8] = .ok (.sequenceS 5 0xFE#8) [] ∧
  decode [0b11101101#8, 0b00101011#8, 0x80#8] = .ok (.sequenceL 300 0x80#8) [] ∧
  decode [0b10000101#8, 0x04#8, 0x00#8] = .ok (.copyForwardS 6 0x0400#16) [] ∧
  decode [0b11110001#8, 0b11110101#8, 0x00#8, 0x01#8] = .ok (.copyForwardL 502 0x0001#16) [] ∧
  decode [0b10100100#8, 0x00#8, 0x05#8] = .ok (.copyBitReversedS 5 0x0005#16) [] ∧
  decode [0b11110101#8, 0b00101011#8, 0x12#8, 0x34#8] = .ok (.copyBitReversedL 300 0x1234#16) [] ∧
  decode [0b11011111#8, 0x00#8, 0x1F#8] = .ok (.copyBackwardS 32 0x001F#16) [] ∧
  decode [0b11111011#8, 0b11111111#8, 0x12#8, 0x34#8] = .ok (.copyBackwardL 1024 0x1234#16) [] ∧
  decode [0b11111100#8, 0x00#8] = .ok (.reserved7FC 0x00#8) [] ∧
  decode [0b11111101#8, 0x12#8] = .ok (.reserved7FD 0x12#8) [] ∧
  decode [0b11111110#8, 0xFF#8] = .ok (.reserved7FE 0xFF#8) [] ∧
  decode [0b11111111#8] = .ok .terminator []

/-- R64: the rows of the opcode map do not overlap and together match every value of byte 0. -/
def Obligations.OpcodeMapPartitionsByteZero : Prop :=
  ∀ b0 : Byte, (opcodeRows.filter fun r => r.hits b0).length = 1

/-- R88: `HdrDecode` takes every header that `HdrEncode` makes back to its type and length, and consumes all of it. -/
def Obligations.HeaderRoundTrip : Prop :=
  ∀ (c : Cmd) (len : Nat), 1 ≤ len → len ≤ 1024 →
    (∃ b0, hdrEncode c len = [b0] ∧ len ≤ 32 ∧ ∀ b1, hdrDecode b0 b1 = some (c, len, 1)) ∨
    (∃ b0 b1, hdrEncode c len = [b0, b1] ∧ 32 < len ∧ hdrDecode b0 b1 = some (c, len, 2))

/-- R90, R132: no header that `HdrEncode` makes begins with a reserved byte or the terminator. -/
def Obligations.HeaderNeverReservedOrTerminator : Prop :=
  ∀ (c : Cmd) (len : Nat), 1 ≤ len → len ≤ 1024 →
    ∃ b0 rest, hdrEncode c len = b0 :: rest ∧ b0.toNat ≤ 0xFB

/-- R89: a long header may carry a length of 32 or less; it decodes like the short header of the same type and length,
and `HdrEncode` never makes it. -/
def Obligations.NonCanonicalHeaderDecodes : Prop :=
  ∀ (c : Cmd) (len : Nat), 1 ≤ len → len ≤ 32 →
    ∃ b0 b1 c0, longHeader c len = [b0, b1] ∧ hdrDecode b0 b1 = some (c, len, 2) ∧
      hdrEncode c len = [c0] ∧ hdrDecode c0 b1 = some (c, len, 1)

/-! ### BITREV -/

/-- R80: bit `i` of `BITREV(x)` is bit `7 - i` of `x`; and the rule's five examples. -/
def Obligations.BitrevReversesBits : Prop :=
  (∀ (x : Byte) (i : Nat), i < 8 → (bitrev x).getLsbD i = x.getLsbD (7 - i)) ∧
  bitrev 0x01#8 = 0x80#8 ∧ bitrev 0x02#8 = 0x40#8 ∧ bitrev 0x0F#8 = 0xF0#8 ∧ bitrev 0x1E#8 = 0x78#8 ∧
  bitrev 0xA5#8 = 0xA5#8

/-- R82 (1) to (3): BITREV is its own inverse, so a bijection, and its fixed points are the 16 the rule lists. -/
def Obligations.BitrevInvolution : Prop :=
  (∀ x : Byte, bitrev (bitrev x) = x) ∧ Function.Bijective bitrev ∧
  ∀ x : Byte, bitrev x = x ↔
    x ∈ [0x00#8, 0x18#8, 0x24#8, 0x3C#8, 0x42#8, 0x5A#8, 0x66#8, 0x7E#8, 0x81#8, 0x99#8, 0xA5#8, 0xBD#8, 0xC3#8,
      0xDB#8, 0xE7#8, 0xFF#8]

/-! ### Reset and the host -/

/-- R37: the registers after reset, and after the host's reset move in any state (R210, R211), which leaves every space,
the parameter `SRC_SIZE` and the moves to come alone (log 14: the buffers are untouched). -/
def Obligations.ResetRegisters : Prop :=
  (∀ (s : State) (rest : List Event), s.agenda = .host .reset :: rest →
    ∃ t, step s = .next t ∧ t.dec = State.reset.dec ∧ t.enc = State.reset.enc ∧
      t = { s with dec := t.dec, enc := t.enc, agenda := rest }) ∧
  statusCode State.reset.enc.status = 0 ∧ statusCode State.reset.dec.status = 0 ∧
  encErrCode State.reset.enc.err = 0 ∧ decErrCode State.reset.dec.err = 0 ∧
  State.reset.enc.inLen = 0#17 ∧ State.reset.enc.pos = 0 ∧ State.reset.enc.wp = 0 ∧
  State.reset.dec.srcOff = 0 ∧ State.reset.dec.sc = 0 ∧ State.reset.dec.oc = 0

/-- R30, R101, R180, R182: START of ENC, while it is not RUNNING, initialises the registers and validates the input length;
nothing else changes. That both happen in one step is the model's choice (log 15, DEDUCED). -/
def Obligations.EncStartOutcomes : Prop :=
  ∀ (s : State) (v : Nat) (rest : List Event),
    s.agenda = .host (.writeReg .enc 0 v) :: rest → v % 2 = 1 → s.enc.status ≠ .running →
    step s = .next { s with agenda := rest, enc :=
      if s.enc.inLen.toNat = 0 then { s.enc with status := .failed, err := .emptyInput, pos := 0, wp := 0 }
      else if 65536 < s.enc.inLen.toNat then { s.enc with status := .failed, err := .inputTooLong, pos := 0, wp := 0 }
      else { s.enc with status := .running, err := .none, pos := 0, wp := 0 } }

/-- R33, R141: START of DEC, while it is not RUNNING. -/
def Obligations.DecStartInitialises : Prop :=
  ∀ (s : State) (v : Nat) (rest : List Event),
    s.agenda = .host (.writeReg .dec 0 v) :: rest → v % 2 = 1 → s.dec.status ≠ .running →
    step s = .next { s with agenda := rest, dec :=
      { status := .running, err := .none, srcOff := s.dec.srcOff, sc := s.dec.srcOff, oc := 0 } }

/-- R36, R45, R49, U3, U4: what the host must not do to a RUNNING unit is refused by name: START, a write of its parameter
register, a write or a read of any byte of its spaces (log 8: the model's choice of how the spec's "refuse" is
written). -/
def Obligations.HostRefusedWhileRunning : Prop :=
  ∀ (s : State) (u : UnitId) (rest : List Event), unitRunning s u = true →
    (∀ v, v % 2 = 1 → s.agenda = .host (.writeReg u 0 v) :: rest → step s = .refused (.startWhileRunning u)) ∧
    (∀ v, s.agenda = .host (.writeReg u 3 v) :: rest → step s = .refused (.ownedWhileRunning u)) ∧
    (∀ sp a b, spaceOwner sp = u → a < spaceSize s sp → s.agenda = .host (.writeMem sp a b) :: rest →
      step s = .refused (.ownedWhileRunning u)) ∧
    (∀ sp a, spaceOwner sp = u → a < spaceSize s sp → s.agenda = .host (.readMem sp a) :: rest →
      step s = .refused (.ownedWhileRunning u))

/-- R29, R32, R35, U10, U13: a host read of a register returns its defined value and changes nothing else; where the spec
defines none it returns some value of the register's width. -/
def Obligations.HostReadsRegisters : Prop :=
  ∀ (s : State) (u : UnitId) (no : Nat) (rest : List Event), s.agenda = .host (.readReg u no) :: rest →
    (∀ v, registerShows s u no v → step s = .next { s with agenda := rest, hostRdata := v }) ∧
    (∀ w, registerOpen s u no w → ∃ v, v < 2 ^ w ∧
      step s = .next { s with agenda := rest, hostRdata := v, draws := s.draws + 1 }) ∧
    ((∃ v, registerShows s u no v) ∨ ∃ w, registerOpen s u no w)

/-- R29, R30, R31, R33, R34: host writes of the parameter registers, of the read-only and unlisted ones, and of 0 to
START. The cut to the field's width is DEDUCED from "All fields not listed read as 0 and ignore writes" (log 13). -/
def Obligations.HostWritesRegisters : Prop :=
  ∀ (s : State) (v : Nat) (rest : List Event),
    (s.agenda = .host (.writeReg .enc 3 v) :: rest → s.enc.status ≠ .running →
      step s = .next { s with agenda := rest, enc := { s.enc with inLen := BitVec.ofNat 17 v } }) ∧
    (s.agenda = .host (.writeReg .dec 3 v) :: rest → s.dec.status ≠ .running →
      step s = .next { s with agenda := rest, dec := { s.dec with srcOff := v % 2 ^ Config.srcAw s.srcSize } }) ∧
    (∀ u no, s.agenda = .host (.writeReg u no v) :: rest → (no = 1 ∨ no = 2 ∨ 4 ≤ no ∨ (no = 0 ∧ v % 2 = 0)) →
      step s = .next { s with agenda := rest })

/-- R22, R36, R214, R215: a host write of a buffer byte of a unit that is not RUNNING stores that byte and nothing else;
an index outside the space is the fault (log 9). -/
def Obligations.HostWritesBuffers : Prop :=
  ∀ (s : State) (sp : Space) (a : Nat) (b : Byte) (rest : List Event),
    s.agenda = .host (.writeMem sp a b) :: rest →
    (a < spaceSize s sp → unitRunning s (spaceOwner sp) = false →
      ∃ t, step s = .next t ∧
        t = { s with agenda := rest, src := t.src, out := t.out, inp := t.inp, cs := t.cs } ∧
        ∀ sp' x, Memory.read? (spaceOf t sp') x =
          if sp' = sp ∧ x = a then some b else Memory.read? (spaceOf s sp') x) ∧
    (spaceSize s sp ≤ a → step s = .fault (.noSuchIndex sp a))

/-- R50, R129, R162, R224, U9: a host read of a buffer byte of a unit that is not RUNNING: a defined byte (`byteShows`) is
returned as it was stored; any other read (a byte nothing has stored, or OUT and CS outside a DONE result) returns some
byte; neither changes anything else. That such an open read answers a free value is log 2 and log 4 (DEDUCED), that an
index outside the space is the fault is log 9 (DESIGN CHOICE). -/
def Obligations.HostReadsBuffers : Prop :=
  ∀ (s : State) (sp : Space) (a : Nat) (rest : List Event), s.agenda = .host (.readMem sp a) :: rest →
    (a < spaceSize s sp → unitRunning s (spaceOwner sp) = false →
      (∀ b : Byte, Memory.read? (spaceOf s sp) a = some b → byteShows s sp a →
        step s = .next { s with agenda := rest, hostRdata := b.toNat }) ∧
      (Memory.read? (spaceOf s sp) a = none ∨ ¬ byteShows s sp a →
        ∃ v k, v < 256 ∧ k ≤ 1 ∧ step s = .next { s with agenda := rest, hostRdata := v, draws := s.draws + k })) ∧
    (spaceSize s sp ≤ a → step s = .fault (.noSuchIndex sp a))

/-! ### The step -/

/-- R142, R147: when DEC is to move and the stream bytes at `dec.sc` decode to a token, the step is `exec` of it, at the
state with that move taken from the agenda. -/
def Obligations.StepRunsDecodedToken : Prop :=
  ∀ (s : State) (i : Instr) (rest : List Byte), decReady s → decode (fetchWindow s) = .ok i rest →
    step s = exec i { s with agenda := s.agenda.tail }

/-- R60, R63, R142: when DEC is to move and SRC holds the encoding of a well-formed token at `dec.sc`, the step is `exec`
of that token. -/
def Obligations.StepRunsEncodedToken : Prop :=
  ∀ (s : State) (i : Instr), decReady s → i.wf = true → streamAt s s.dec.sc (encode i) →
    step s = exec i { s with agenda := s.agenda.tail }

/-- R144, R145, R160, R186: when SRC ends inside the token, the step fails: with `E_SRC_RANGE` if the header is cut off;
with `E_OUT_OVERFLOW` before `E_SRC_RANGE` if only the payload is. -/
def Obligations.StepFailsAtTheEndOfSrc : Prop :=
  ∀ s : State, decReady s →
    (s.srcSize ≤ s.dec.sc → step s = .next (decFailed .srcRange { s with agenda := s.agenda.tail })) ∧
    (∀ b0, s.dec.sc + 1 = s.srcSize → fetch s s.dec.sc = some b0 → b0 ≠ 0xFF#8 → b0.extractLsb 7 5 = 7#3 →
      step s = .next (decFailed .srcRange { s with agenda := s.agenda.tail })) ∧
    ∀ (i : Instr) (len w m h : Nat), i.wf = true → i.lengths = some (len, w) →
      h = (if (encode i).head?.map isShort = some true then 1 else 2) → h ≤ m → m < (encode i).length →
      s.dec.sc + m = s.srcSize → streamAt s s.dec.sc ((encode i).take m) →
      step s = .next (decFailed (if 65536 < s.dec.oc + len then .outOverflow else .srcRange)
        { s with agenda := s.agenda.tail })

/-- R212: with no move pending and no unit RUNNING, nothing happens. -/
def Obligations.IdleBlockDoesNothing : Prop :=
  ∀ s : State, s.agenda = [] → s.dec.status ≠ .running → s.enc.status ≠ .running → step s = .next s

/-! ### The tokens -/

/-- R148, R156: Literal, both forms: the payload bytes stand at the output cursor; frame as `tokenDone` says. -/
def Obligations.LiteralCopiesPayload : Prop :=
  ∀ (s : State) (i : Instr) (len : Nat) (bytes : List Byte), isLiteral i len bytes → i.wf = true →
    s.dec.oc + len ≤ 65536 →
    ∃ t, exec i s = .next t ∧ tokenDone i.size len s t ∧ t.draws = s.draws ∧
      ∀ j, j < len → Memory.read? t.out (s.dec.oc + j) = bytes[j]?

/-- R149, R156: Fill, both forms. -/
def Obligations.FillRepeatsByte : Prop :=
  ∀ (s : State) (i : Instr) (len : Nat) (v : Byte), isFill i len v → s.dec.oc + len ≤ 65536 →
    ∃ t, exec i s = .next t ∧ tokenDone i.size len s t ∧ t.draws = s.draws ∧
      ∀ j, j < len → Memory.read? t.out (s.dec.oc + j) = some v

/-- R150, R156: WordFill, both forms: `len` pairs, `2 * len` bytes. -/
def Obligations.WordFillRepeatsPair : Prop :=
  ∀ (s : State) (i : Instr) (len : Nat) (v0 v1 : Byte), isWordFill i len v0 v1 → s.dec.oc + 2 * len ≤ 65536 →
    ∃ t, exec i s = .next t ∧ tokenDone i.size (2 * len) s t ∧ t.draws = s.draws ∧
      ∀ j, j < len → Memory.read? t.out (s.dec.oc + 2 * j) = some v0 ∧
        Memory.read? t.out (s.dec.oc + 2 * j + 1) = some v1

/-- R151, R156: Sequence, both forms: counting up modulo 256. -/
def Obligations.SequenceCountsUp : Prop :=
  ∀ (s : State) (i : Instr) (len : Nat) (v : Byte), isSequence i len v → s.dec.oc + len ≤ 65536 →
    ∃ t, exec i s = .next t ∧ tokenDone i.size len s t ∧ t.draws = s.draws ∧
      ∀ j, j < len → Memory.read? t.out (s.dec.oc + j) = some (BitVec.ofNat 8 (v.toNat + j))

/-- R152, R156 to R159: CopyForward, both forms, on any address that passes the checks. A byte read from the written part
is the byte there, those written earlier by this token included; any other byte is free. -/
def Obligations.CopyForwardCopies : Prop :=
  ∀ (s : State) (i : Instr) (len : Nat) (addr : Addr), isCopyForward i len addr →
    s.dec.oc + len ≤ 65536 → addr.toNat + len ≤ 65536 →
    ∃ t, exec i s = .next t ∧ tokenDone i.size len s t ∧ s.draws ≤ t.draws ∧ t.draws ≤ s.draws + len ∧
      copiedBytes (fun j => addr.toNat + j) (fun b => b) len s t

/-- R153, R156 to R159: CopyBitReversed, both forms. -/
def Obligations.CopyBitReversedCopies : Prop :=
  ∀ (s : State) (i : Instr) (len : Nat) (addr : Addr), isCopyBitReversed i len addr →
    s.dec.oc + len ≤ 65536 → addr.toNat + len ≤ 65536 →
    ∃ t, exec i s = .next t ∧ tokenDone i.size len s t ∧ s.draws ≤ t.draws ∧ t.draws ≤ s.draws + len ∧
      copiedBytes (fun j => addr.toNat + j) bitrev len s t

/-- R154, R156 to R159: CopyBackward, both forms; the check `addr - len + 1 < 0` is `addr + 1 < len`. -/
def Obligations.CopyBackwardCopies : Prop :=
  ∀ (s : State) (i : Instr) (len : Nat) (addr : Addr), isCopyBackward i len addr →
    s.dec.oc + len ≤ 65536 → len ≤ addr.toNat + 1 →
    ∃ t, exec i s = .next t ∧ tokenDone i.size len s t ∧ s.draws ≤ t.draws ∧ t.draws ≤ s.draws + len ∧
      copiedBytes (fun j => addr.toNat - j) (fun b => b) len s t

/-- R152 (a), R157: an overlapping CopyForward repeats the `d = oc - addr` bytes before the cursor with period `d`. -/
def Obligations.OverlappingForwardCopyIsPeriodic : Prop :=
  ∀ (s : State) (i : Instr) (len d : Nat) (addr : Addr), isCopyForward i len addr → outWritten s →
    s.dec.oc + len ≤ 65536 → addr.toNat + d = s.dec.oc → 0 < d → addr.toNat + len ≤ 65536 →
    ∃ t, exec i s = .next t ∧ t.draws = s.draws ∧
      ∀ j, j < len → Memory.read? t.out (s.dec.oc + j) = Memory.read? s.out (addr.toNat + j % d)

/-- R153 (a), R157: an overlapping CopyBitReversed reverses once more each time it laps its own output. -/
def Obligations.OverlappingReversedCopyAlternates : Prop :=
  ∀ (s : State) (i : Instr) (len d : Nat) (addr : Addr), isCopyBitReversed i len addr → outWritten s →
    s.dec.oc + len ≤ 65536 → addr.toNat + d = s.dec.oc → 0 < d → addr.toNat + len ≤ 65536 →
    ∃ t, exec i s = .next t ∧ t.draws = s.draws ∧
      ∀ j, j < len → Memory.read? t.out (s.dec.oc + j) =
        (Memory.read? s.out (addr.toNat + j % d)).map (fun b => if (j / d) % 2 = 0 then bitrev b else b)

/-- R154 (b): a CopyBackward from the written part writes the bytes before it in reverse order. -/
def Obligations.BackwardCopyReversesOrder : Prop :=
  ∀ (s : State) (i : Instr) (len : Nat) (addr : Addr), isCopyBackward i len addr → outWritten s →
    s.dec.oc + len ≤ 65536 → addr.toNat < s.dec.oc → len ≤ addr.toNat + 1 →
    ∃ t, exec i s = .next t ∧ t.draws = s.draws ∧
      ∀ j, j < len → Memory.read? t.out (s.dec.oc + j) = Memory.read? s.out (addr.toNat - j)

/-- R158, R159, U1: a copy from at or above the cursor draws a fresh free byte for every byte it reads outside the written
part: all of them upward; downward, with CopyBackward, those of the iterations `j` with `oc + j ≤ addr - j`, and (where
the written part is written) no more. -/
def Obligations.UnwrittenCopyDrawsFreshBytes : Prop :=
  (∀ (s : State) (i : Instr) (len : Nat) (addr : Addr) (f : Byte → Byte),
    (isCopyForward i len addr ∧ f = (fun b => b)) ∨ (isCopyBitReversed i len addr ∧ f = bitrev) →
    s.dec.oc + len ≤ 65536 → addr.toNat + len ≤ 65536 → s.dec.oc ≤ addr.toNat →
    ∃ t, exec i s = .next t ∧ t.draws = s.draws + len ∧
      ∀ j, j < len → Memory.read? t.out (s.dec.oc + j) = some (f (Config.freeByte (s.draws + j)))) ∧
  ∀ (s : State) (i : Instr) (len : Nat) (addr : Addr), isCopyBackward i len addr →
    s.dec.oc + len ≤ 65536 → len ≤ addr.toNat + 1 → s.dec.oc ≤ addr.toNat →
    ∃ t, exec i s = .next t ∧
      (∀ j, j < len → s.dec.oc + 2 * j ≤ addr.toNat →
        Memory.read? t.out (s.dec.oc + j) = some (Config.freeByte (s.draws + j))) ∧
      (outWritten s → t.draws = s.draws + min len ((addr.toNat - s.dec.oc) / 2 + 1))

/-- R145, R150, R183: the capacity checks of all seven commands in both forms, and the second check of WordFill; a
failing token writes the code and the status and nothing else. -/
def Obligations.CapacityChecked : Prop :=
  (∀ (s : State) (i : Instr) (len w : Nat), i.lengths = some (len, w) → 65536 < s.dec.oc + len →
    exec i s = .next (decFailed .outOverflow s)) ∧
  (∀ (s : State) (i : Instr) (len : Nat) (v0 v1 : Byte), isWordFill i len v0 v1 → 65536 < s.dec.oc + 2 * len →
    exec i s = .next (decFailed .outOverflow s))

/-- R152, R153, R154, R181, R186: the range checks of the copies, after the capacity check. -/
def Obligations.CopyRangesChecked : Prop :=
  ∀ (s : State) (i : Instr) (len : Nat) (addr : Addr), s.dec.oc + len ≤ 65536 →
    (isCopyForward i len addr ∨ isCopyBitReversed i len addr → 65536 < addr.toNat + len →
      exec i s = .next (decFailed .copyRange s)) ∧
    (isCopyBackward i len addr → (addr.toNat : Int) - len + 1 < 0 →
      exec i s = .next (decFailed .backUnderflow s))

/-- R155, R183: the three reserved tokens fail with `E_RESERVED_TYPE` in every state, whatever the second byte; this is
their own effect. -/
def Obligations.ReservedTokensFail : Prop :=
  ∀ (s : State) (i : Instr) (b1 : Byte), isReserved i b1 →
    exec i s = .next { s with dec := { s.dec with err := .reservedType, status := .failed } }

/-- R143: the terminator moves DEC to DONE and changes nothing else. -/
def Obligations.TerminatorEndsDecoding : Prop :=
  ∀ s : State, exec .terminator s = .next { s with dec := { s.dec with status := .done } }

/-- R161, R183, R163: every well-formed token, in every state, gives a next state, and in one of three ways: it is done
whole, each of its bytes in OUT written; or it failed, having written only the code and the status; or it is the terminator. `E_ADDR_RANGE` never occurs
(R146), and `E_SRC_RANGE` belongs to the fetch. -/
def Obligations.EveryTokenIsAtomic : Prop :=
  ∀ (s : State) (i : Instr), i.wf = true →
    (∃ t len w, exec i s = .next t ∧ i.lengths = some (len, w) ∧ 1 ≤ w ∧ s.dec.oc + w ≤ 65536 ∧
      tokenDone i.size w s t ∧ s.draws ≤ t.draws ∧
      ∀ x, s.dec.oc ≤ x → x < s.dec.oc + w → ∃ b, Memory.read? t.out x = some b) ∨
    (∃ c, exec i s = .next (decFailed c s) ∧
      (c = .reservedType ∨ c = .outOverflow ∨ c = .copyRange ∨ c = .backUnderflow)) ∨
    (i = .terminator ∧ exec i s = .next { s with dec := { s.dec with status := .done } })

/-! ### Whole operations of the decoder -/

/-- R164: left to itself a RUNNING DEC ends in DONE or FAILED, within 65536 successful token steps and one final step. -/
def Obligations.DecoderTerminates : Prop :=
  ∀ s : State, s.agenda = [] → s.dec.status = .running →
    ∃ k t, k ≤ 65537 ∧ Host.Core.run core k s = .next t ∧ (t.dec.status = .done ∨ t.dec.status = .failed)

/-- R213, R225: what OUT held beyond the written part does not influence a turn of DEC: neither its registers nor any byte
of the written part afterwards. -/
def Obligations.LeftoverOutIsNeverSeen : Prop :=
  ∀ (s : State) (m : Memory), (∀ a, a < s.dec.oc → Memory.read? m a = Memory.read? s.out a) →
    ∃ t u, decTurn s = .next t ∧ decTurn { s with out := m } = .next u ∧ u = { t with out := u.out } ∧
      ∀ a, a < t.dec.oc → Memory.read? u.out a = Memory.read? t.out a

/-- R10, R49, R197: the two units share no state: a turn of each, in either order, gives the same state. -/
def Obligations.UnitTurnsCommute : Prop :=
  ∀ s : State, ∃ d e t, decTurn s = .next d ∧ encTurn s = .next e ∧ encTurn d = .next t ∧ decTurn e = .next t

/-! ### Invariants -/

/-- R37: the block's invariant holds after reset. -/
def Obligations.ResetMeetsBlockInv : Prop := BlockInv State.reset

/-- R13, R15, R19, R22, R23: every step of any agent keeps the block's invariant: the spaces keep their canonical form
inside their ranges, an error code stands exactly when FAILED, the cursors stay legal, and the written part of OUT is
written. -/
def Obligations.StepKeepsBlockInv : Prop :=
  ∀ s t : State, BlockInv s → step s = .next t → BlockInv t

/-- R37: the encoder's invariant holds after reset. -/
def Obligations.ResetMeetsEncInv : Prop := EncInv State.reset

/-- R17, R101, R127, R133: every step of any agent keeps the encoder's invariant, and with it the output-size bound. -/
def Obligations.StepKeepsEncInv : Prop :=
  ∀ s t : State, EncInv s → step s = .next t → EncInv t

/-! ### The encoder -/

/-- R105 to R107: the lengths that strategies 1 to 3 measure are the largest that their closed forms allow. -/
def Obligations.RunMatchersMeasureLongest : Prop :=
  ∀ (g : Nat → Byte) (n pos2 : Nat),
    isLongest (fun j => pos2 + j < n ∧ g (pos2 + j) = g pos2) 1024 (byteRun g n pos2) ∧
    isLongest (fun j => pos2 + 2 * j + 1 < n ∧ g (pos2 + 2 * j) = g pos2 ∧ g (pos2 + 2 * j + 1) = g (pos2 + 1)) 1024
      (wordRun g n pos2) ∧
    isLongest (fun j => pos2 + j < n ∧ (g (pos2 + j)).toNat = ((g pos2).toNat + j) % 256) 1024 (arithRun g n pos2)

/-- R109 to R112: the lengths that strategies 4a to 4c measure are the largest that their closed forms allow. -/
def Obligations.CopyMatchersMeasureLongest : Prop :=
  ∀ (g : Nat → Byte) (n pos2 pos3 : Nat), pos3 < pos2 →
    isLongest (fun j => pos3 + j < pos2 ∧ pos2 + j < n ∧ g (pos3 + j) = g (pos2 + j)) 1024 (fwdMatch g n pos2 pos3) ∧
    isLongest (fun j => pos3 + j < pos2 ∧ pos2 + j < n ∧ g (pos3 + j) = bitrev (g (pos2 + j))) 1024
      (revMatch g n pos2 pos3) ∧
    isLongest (fun j => (0 : Int) ≤ (pos3 : Int) - j ∧ pos2 + j < n ∧ g (pos3 - j) = g (pos2 + j)) 1024
      (bwdMatch g n pos2 pos3)

/-- R104, R108, R113: the selector's order: strategy 1, 2, 3, then the smallest `pos3` that qualifies, and at it 4a before
4b before 4c; `none` exactly when nothing qualifies. -/
def Obligations.SelectorTakesFirstFit : Prop :=
  ∀ (g : Nat → Byte) (n pos2 : Nat),
    (3 ≤ byteRun g n pos2 → select g n pos2 = some (.fill (g pos2) (byteRun g n pos2))) ∧
    (byteRun g n pos2 < 3 → 3 ≤ wordRun g n pos2 →
      select g n pos2 = some (.wordFill (g pos2) (g (pos2 + 1)) (wordRun g n pos2))) ∧
    (byteRun g n pos2 < 3 → wordRun g n pos2 < 3 → 4 ≤ arithRun g n pos2 →
      select g n pos2 = some (.sequence (g pos2) (arithRun g n pos2))) ∧
    (byteRun g n pos2 < 3 → wordRun g n pos2 < 3 → arithRun g n pos2 < 4 →
      (∀ pos3, pos3 < pos2 →
        (∀ q, q < pos3 → fwdMatch g n pos2 q < 5 ∧ revMatch g n pos2 q < 5 ∧ bwdMatch g n pos2 q < 5) →
        (5 ≤ fwdMatch g n pos2 pos3 → select g n pos2 = some (.copyForward pos3 (fwdMatch g n pos2 pos3))) ∧
        (fwdMatch g n pos2 pos3 < 5 → 5 ≤ revMatch g n pos2 pos3 →
          select g n pos2 = some (.copyBitReversed pos3 (revMatch g n pos2 pos3))) ∧
        (fwdMatch g n pos2 pos3 < 5 → revMatch g n pos2 pos3 < 5 → 5 ≤ bwdMatch g n pos2 pos3 →
          select g n pos2 = some (.copyBackward pos3 (bwdMatch g n pos2 pos3)))) ∧
      (select g n pos2 = none ↔
        ∀ q, q < pos2 → fwdMatch g n pos2 q < 5 ∧ revMatch g n pos2 q < 5 ∧ bwdMatch g n pos2 q < 5))

/-- R103: the outer scan ends at the earliest candidate position with a match, or at `min(n, pos + 1024)` with none. -/
def Obligations.ScanFindsEarliestMatch : Prop :=
  ∀ (g : Nat → Byte) (n pos : Nat), pos ≤ n →
    ∃ p, (∀ q, pos ≤ q → q < p → select g n q = none) ∧
      ((∃ m, scan g n 1024 pos = (p, some m) ∧ pos ≤ p ∧ p < n ∧ p < pos + 1024 ∧ select g n p = some m) ∨
        (scan g n 1024 pos = (p, none) ∧ p = min n (pos + 1024)))

/-- R115 to R123, R134: every token ENC selects is a well-formed token with a canonical header, its bytes are that
token's encoding, the decoder reads it back, and it covers at least 3 input bytes inside the input (R124). -/
def Obligations.SelectedTokenIsEncoded : Prop :=
  ∀ (g : Nat → Byte) (n pos2 : Nat) (m : Match) (rest : List Byte), pos2 < n → n ≤ 65536 →
    select g n pos2 = some m →
    m.token.wf = true ∧ m.bytes = encode m.token ∧ decode (m.bytes ++ rest) = .ok m.token rest ∧
      3 ≤ m.consumed ∧ pos2 + m.consumed ≤ n

/-- R115, R117, R126: the pending bytes are emitted as one Literal with a canonical header; nothing if there are none. -/
def Obligations.PendingLiteralIsEncoded : Prop :=
  ∀ (g : Nat → Byte) (pos k : Nat), k ≤ 1024 →
    (k = 0 → literalBytes g pos (pos + k) = []) ∧
    (1 ≤ k → ∃ i bytes, isLiteral i k bytes ∧ i.wf = true ∧ literalBytes g pos (pos + k) = encode i ∧
      (i = .literalS k bytes ↔ k ≤ 32) ∧ ∀ j, j < k → bytes[j]? = some (g (pos + j)))

/-- R102, R103, R114, R124, R126, R128: a turn of ENC inside the input. With `p` and `m` the end and the match of the outer
scan of 1024 positions from `enc.pos`, the pending literal `[enc.pos, p)` and then the match's token, if any, are appended
to CS at `enc.wp`, and `enc.pos` moves to `p` plus the bytes the match covers: by at least 1 and not past the input;
nothing else changes. The iteration of the whole-operation function (R128) is that same one. -/
def Obligations.EncIterationEffect : Prop :=
  ∀ s : State, encReady s → s.enc.pos < inLength s →
    ∃ t bs, step s = .next t ∧ iteration (inByte s) (inLength s) s.enc.pos = (t.enc.pos, bs) ∧
      (∀ p m, scan (inByte s) (inLength s) 1024 s.enc.pos = (p, m) →
        bs = literalBytes (inByte s) s.enc.pos p ++ matchBytes m ∧ t.enc.pos = p + matchConsumed m) ∧
      s.enc.pos < t.enc.pos ∧ t.enc.pos ≤ inLength s ∧
      t = { s with agenda := s.agenda.tail, cs := t.cs,
                   enc := { s.enc with pos := t.enc.pos, wp := s.enc.wp + bs.length } } ∧
      ∀ x, Memory.read? t.cs x =
        if s.enc.wp ≤ x ∧ x < s.enc.wp + bs.length then bs[x - s.enc.wp]? else Memory.read? s.cs x

/-- R127, R129: a turn of ENC at the end of the input: 0xFF is appended and the unit is DONE; nothing else changes. -/
def Obligations.EncTerminatorEffect : Prop :=
  ∀ s : State, encReady s → inLength s ≤ s.enc.pos →
    ∃ t, step s = .next t ∧
      t = { s with agenda := s.agenda.tail, cs := t.cs,
                   enc := { s.enc with status := .done, wp := s.enc.wp + 1 } } ∧
      ∀ x, Memory.read? t.cs x = if x = s.enc.wp then some 0xFF#8 else Memory.read? s.cs x

/-- R100, R128, R135: left to itself after a START that was accepted, ENC ends in DONE within `n + 1` steps, with
`enc.pos = n`, and CS holds exactly the stream of the whole-operation function `compress`; nothing else changes. -/
def Obligations.EncoderRunsCompress : Prop :=
  ∀ s : State, s.agenda = [] → s.dec.status ≠ .running → s.enc.status = .running → s.enc.pos = 0 → s.enc.wp = 0 →
    ∃ k t, k ≤ inLength s + 1 ∧ Host.Core.run core k s = .next t ∧
      t = { s with cs := t.cs, enc := { s.enc with status := .done, pos := inLength s,
                                                    wp := (compress (inByte s) (inLength s)).length } } ∧
      ∀ x, Memory.read? t.cs x =
        if x < t.enc.wp then (compress (inByte s) (inLength s))[x]? else Memory.read? s.cs x

/-- R53, R100: the stream depends on the input bytes below `n` alone. -/
def Obligations.CompressReadsOnlyTheInput : Prop :=
  ∀ (g g' : Nat → Byte) (n : Nat), (∀ i, i < n → g i = g' i) → compress g n = compress g' n

/-- R133: the stream of an input of `n` bytes has at most `n + floor(n/36) + 3` bytes. -/
def Obligations.CompressedSizeBound : Prop :=
  ∀ (g : Nat → Byte) (n : Nat), 1 ≤ n → n ≤ 65536 → (compress g n).length ≤ Config.csBound n

/-- R131, R100: decoding what ENC makes gives the input back: DEC, left to itself on the stream of any accepted input,
ends in DONE with `n` bytes in OUT, and they are the input. -/
def Obligations.RoundTrip : Prop :=
  ∀ (g : Nat → Byte) (n : Nat) (s : State), 1 ≤ n → n ≤ 65536 → s.agenda = [] → s.dec.status = .running →
    s.dec.oc = 0 → streamAt s s.dec.sc (compress g n) →
    ∃ k t, Host.Core.run core k s = .next t ∧ t.dec.status = .done ∧ t.dec.err = s.dec.err ∧ t.dec.oc = n ∧
      ∀ a, a < n → Memory.read? t.out a = some (g a)
end

