-- ==== Sys2Proof/Laws/Memory.lean ====
section
/-! SUPPORT. What the memory operations do: a read after a write, and the canonical form they keep. -/

namespace Sys2Proof.Machine

@[simp] theorem Memory.read_nil (a : Nat) : Memory.read? [] a = none := rfl

theorem Memory.read_cons (c : Host.Cell) (m : Memory) (a : Nat) :
    Memory.read? (c :: m) a = if c.1 = a then some c.2 else Memory.read? m a := rfl

/-- Reading after one write: the written byte at its index, the old contents elsewhere. -/
theorem Memory.read_write (m : Memory) (a : Nat) (b : Byte) (x : Nat) :
    Memory.read? (Memory.write m a b) x = if x = a then some b else Memory.read? m x := by
  induction m with
  | nil => simp only [Memory.write, Memory.read_cons, eq_comm (a := x)]
  | cons c m ih =>
    obtain ⟨a', b'⟩ := c
    unfold Memory.write
    by_cases h1 : a' < a
    · rw [if_pos h1, Memory.read_cons, ih, Memory.read_cons]
      by_cases hx : x = a
      · subst hx; simp [Nat.ne_of_lt h1]
      · simp [hx]
    · rw [if_neg h1]
      by_cases h2 : a' = a
      · subst h2
        rw [if_pos rfl, Memory.read_cons, Memory.read_cons]
        by_cases hx : x = a' <;> simp [hx, eq_comm]
      · rw [if_neg h2, Memory.read_cons]
        simp only [eq_comm (a := x)]

@[simp] theorem Memory.read_write_same (m : Memory) (a : Nat) (b : Byte) :
    Memory.read? (Memory.write m a b) a = some b := by simp [Memory.read_write]

theorem Memory.read_append (m k : Memory) (x : Nat) :
    Memory.read? (m ++ k) x = (Memory.read? m x).or (Memory.read? k x) := by
  induction m with
  | nil => simp
  | cons c m ih =>
    rw [List.cons_append, Memory.read_cons, Memory.read_cons, ih]
    split <;> simp

theorem Memory.read_filter (p : Nat → Bool) (m : Memory) (x : Nat) :
    Memory.read? (m.filter fun c => p c.1) x = if p x then Memory.read? m x else none := by
  induction m with
  | nil => simp
  | cons c m ih =>
    by_cases hc : p c.1 <;> by_cases hx : c.1 = x <;>
      simp_all [Memory.read_cons]

theorem Memory.read_cells (bs : List Byte) (a x : Nat) :
    Memory.read? (Memory.cells a bs) x = if a ≤ x then bs[x - a]? else none := by
  induction bs generalizing a with
  | nil => simp [Memory.cells]
  | cons b bs ih =>
    rw [Memory.cells, Memory.read_cons, ih]
    by_cases h : a = x
    · subst h; simp
    · by_cases h' : a ≤ x
      · have e : x - a = (x - (a + 1)) + 1 := by omega
        have h'' : a + 1 ≤ x := by omega
        simp [h, h', h'', e]
      · have : ¬ a + 1 ≤ x := by omega
        simp [h, h', this]

/-- Reading after a run of writes: the run's byte inside it, the old contents elsewhere. -/
theorem Memory.read_writeRun (m : Memory) (a : Nat) (bs : List Byte) (x : Nat) :
    Memory.read? (Memory.writeRun m a bs) x =
      if a ≤ x ∧ x < a + bs.length then bs[x - a]? else Memory.read? m x := by
  have h1 := Memory.read_filter (fun c => decide (c < a)) m x
  have h2 := Memory.read_filter (fun c => decide (a + bs.length ≤ c)) m x
  rw [Memory.writeRun, Memory.read_append, Memory.read_append, h1, h2, Memory.read_cells]
  by_cases hlt : x < a
  · have : ¬ a ≤ x := by omega
    have : ¬ a + bs.length ≤ x := by omega
    simp [*]
  · by_cases hin : x < a + bs.length
    · have hk : x - a < bs.length := by omega
      have : a ≤ x := by omega
      simp [*]
    · have hk : bs.length ≤ x - a := by omega
      have : a ≤ x := by omega
      have : a + bs.length ≤ x := by omega
      simp [*]

/-- The canonical form, as a fact about lists. -/
theorem Memory.wf_iff (m : Memory) : Memory.wf m = true ↔ m.Pairwise (fun c d => c.1 < d.1) := by
  induction m with
  | nil => simp [Memory.wf]
  | cons c m ih => simp [Memory.wf, ih]

/-- Every index a write leaves is the written one or an old one. -/
theorem Memory.mem_write {m : Memory} {a : Nat} {b : Byte} {c : Host.Cell} (h : c ∈ Memory.write m a b) :
    c = (a, b) ∨ c ∈ m := by
  induction m with
  | nil => simpa [Memory.write] using h
  | cons d m ih =>
    obtain ⟨a', b'⟩ := d
    unfold Memory.write at h
    split at h
    · rcases List.mem_cons.1 h with h | h
      · exact .inr (by simp [h])
      · exact (ih h).imp id (List.mem_cons_of_mem _)
    · split at h
      · rcases List.mem_cons.1 h with h | h
        · exact .inl h
        · exact .inr (List.mem_cons_of_mem _ h)
      · exact List.mem_cons.1 h

/-- A write keeps the canonical form. -/
theorem Memory.wf_write {m : Memory} (h : Memory.wf m = true) (a : Nat) (b : Byte) :
    Memory.wf (Memory.write m a b) = true := by
  rw [Memory.wf_iff] at h ⊢
  induction m with
  | nil => simp [Memory.write]
  | cons d m ih =>
    obtain ⟨a', b'⟩ := d
    rw [List.pairwise_cons] at h
    unfold Memory.write
    split
    · rename_i hlt
      refine List.pairwise_cons.2 ⟨fun c hc => ?_, ih h.2⟩
      rcases Memory.mem_write hc with rfl | hc
      · exact hlt
      · exact h.1 c hc
    · rename_i hge
      split
      · rename_i heq
        subst heq
        exact List.pairwise_cons.2 ⟨h.1, h.2⟩
      · rename_i hne
        have hlt : a < a' := by omega
        refine List.pairwise_cons.2 ⟨fun c hc => ?_, List.pairwise_cons.2 h⟩
        rcases List.mem_cons.1 hc with rfl | hc
        · exact hlt
        · exact hlt.trans (h.1 c hc)

theorem Memory.mem_cells {a : Nat} {bs : List Byte} {c : Host.Cell} (h : c ∈ Memory.cells a bs) :
    a ≤ c.1 ∧ c.1 < a + bs.length := by
  induction bs generalizing a with
  | nil => simp [Memory.cells] at h
  | cons b bs ih =>
    rcases List.mem_cons.1 h with rfl | h
    · simp
    · have := ih h
      simp only [List.length_cons]
      omega

theorem Memory.cells_pairwise (a : Nat) (bs : List Byte) :
    (Memory.cells a bs).Pairwise (fun c d => c.1 < d.1) := by
  induction bs generalizing a with
  | nil => simp [Memory.cells]
  | cons b bs ih =>
    refine List.pairwise_cons.2 ⟨fun c hc => ?_, ih (a + 1)⟩
    have := Memory.mem_cells hc
    show a < c.1
    omega

/-- A run of writes keeps the canonical form. -/
theorem Memory.wf_writeRun {m : Memory} (h : Memory.wf m = true) (a : Nat) (bs : List Byte) :
    Memory.wf (Memory.writeRun m a bs) = true := by
  rw [Memory.wf_iff] at h ⊢
  rw [Memory.writeRun, List.pairwise_append, List.pairwise_append]
  refine ⟨h.filter _, ⟨Memory.cells_pairwise a bs, h.filter _, ?_⟩, ?_⟩
  · intro c hc d hd
    have := Memory.mem_cells hc
    have hd := (List.mem_filter.1 hd).2
    simp only [decide_eq_true_eq] at hd
    omega
  · intro c hc d hd
    have hc := (List.mem_filter.1 hc).2
    simp only [decide_eq_true_eq] at hc
    rcases List.mem_append.1 hd with hd | hd
    · have := Memory.mem_cells hd
      omega
    · have hd := (List.mem_filter.1 hd).2
      simp only [decide_eq_true_eq] at hd
      omega

theorem Memory.below_iff (m : Memory) (n : Nat) : Memory.below m n = true ↔ ∀ c ∈ m, c.1 < n := by
  simp [Memory.below]

/-- A write inside a range keeps the listed indices inside it. -/
theorem Memory.below_write {m : Memory} {n a : Nat} (h : Memory.below m n = true) (ha : a < n) (b : Byte) :
    Memory.below (Memory.write m a b) n = true := by
  rw [Memory.below_iff] at h ⊢
  intro c hc
  rcases Memory.mem_write hc with rfl | hc
  · exact ha
  · exact h c hc

/-- A run of writes inside a range keeps the listed indices inside it. -/
theorem Memory.below_writeRun {m : Memory} {n a : Nat} (h : Memory.below m n = true) (bs : List Byte)
    (ha : a + bs.length ≤ n) : Memory.below (Memory.writeRun m a bs) n = true := by
  rw [Memory.below_iff] at h ⊢
  intro c hc
  rcases List.mem_append.1 hc with hc | hc
  · exact h c (List.mem_filter.1 hc).1
  · rcases List.mem_append.1 hc with hc | hc
    · have := Memory.mem_cells hc
      omega
    · exact h c (List.mem_filter.1 hc).1

/-- Nothing a write does makes a listed index unlisted. -/
theorem Memory.isSome_write {m : Memory} {x : Nat} (h : (Memory.read? m x).isSome = true) (a : Nat) (b : Byte) :
    (Memory.read? (Memory.write m a b) x).isSome = true := by
  rw [Memory.read_write]
  split
  · rfl
  · exact h

/-- After a run every index of the run is listed, and every index listed before still is. -/
theorem Memory.isSome_writeRun {m : Memory} {x a : Nat} {bs : List Byte}
    (h : (Memory.read? m x).isSome = true ∨ (a ≤ x ∧ x < a + bs.length)) :
    (Memory.read? (Memory.writeRun m a bs) x).isSome = true := by
  rw [Memory.read_writeRun]
  split
  · rename_i hin
    have : x - a < bs.length := by omega
    simp [this]
  · exact h.resolve_right (by assumption)

end Sys2Proof.Machine
end

