-- ==== Sys2Proof/Laws/State.lean ====
section
/-! SUPPORT. One lemma per field per named update of the state, true by definition. -/

namespace Sys2Proof.Machine

/-! ### raiseDec -/

@[simp] theorem raiseDec_enc (c : DecErr) (s : State) : (raiseDec c s).enc = s.enc := rfl
@[simp] theorem raiseDec_dec_status (c : DecErr) (s : State) : (raiseDec c s).dec.status = UnitStatus.failed := rfl
@[simp] theorem raiseDec_dec_err (c : DecErr) (s : State) : (raiseDec c s).dec.err = c := rfl
@[simp] theorem raiseDec_dec_srcOff (c : DecErr) (s : State) : (raiseDec c s).dec.srcOff = s.dec.srcOff := rfl
@[simp] theorem raiseDec_dec_sc (c : DecErr) (s : State) : (raiseDec c s).dec.sc = s.dec.sc := rfl
@[simp] theorem raiseDec_dec_oc (c : DecErr) (s : State) : (raiseDec c s).dec.oc = s.dec.oc := rfl
@[simp] theorem raiseDec_src (c : DecErr) (s : State) : (raiseDec c s).src = s.src := rfl
@[simp] theorem raiseDec_out (c : DecErr) (s : State) : (raiseDec c s).out = s.out := rfl
@[simp] theorem raiseDec_inp (c : DecErr) (s : State) : (raiseDec c s).inp = s.inp := rfl
@[simp] theorem raiseDec_cs (c : DecErr) (s : State) : (raiseDec c s).cs = s.cs := rfl
@[simp] theorem raiseDec_srcSize (c : DecErr) (s : State) : (raiseDec c s).srcSize = s.srcSize := rfl
@[simp] theorem raiseDec_draws (c : DecErr) (s : State) : (raiseDec c s).draws = s.draws := rfl
@[simp] theorem raiseDec_agenda (c : DecErr) (s : State) : (raiseDec c s).agenda = s.agenda := rfl
@[simp] theorem raiseDec_hostRdata (c : DecErr) (s : State) : (raiseDec c s).hostRdata = s.hostRdata := rfl

/-! ### raiseEnc -/

@[simp] theorem raiseEnc_dec (c : EncErr) (s : State) : (raiseEnc c s).dec = s.dec := rfl
@[simp] theorem raiseEnc_enc_status (c : EncErr) (s : State) : (raiseEnc c s).enc.status = UnitStatus.failed := rfl
@[simp] theorem raiseEnc_enc_err (c : EncErr) (s : State) : (raiseEnc c s).enc.err = c := rfl
@[simp] theorem raiseEnc_enc_inLen (c : EncErr) (s : State) : (raiseEnc c s).enc.inLen = s.enc.inLen := rfl
@[simp] theorem raiseEnc_enc_pos (c : EncErr) (s : State) : (raiseEnc c s).enc.pos = s.enc.pos := rfl
@[simp] theorem raiseEnc_enc_wp (c : EncErr) (s : State) : (raiseEnc c s).enc.wp = s.enc.wp := rfl
@[simp] theorem raiseEnc_src (c : EncErr) (s : State) : (raiseEnc c s).src = s.src := rfl
@[simp] theorem raiseEnc_out (c : EncErr) (s : State) : (raiseEnc c s).out = s.out := rfl
@[simp] theorem raiseEnc_inp (c : EncErr) (s : State) : (raiseEnc c s).inp = s.inp := rfl
@[simp] theorem raiseEnc_cs (c : EncErr) (s : State) : (raiseEnc c s).cs = s.cs := rfl
@[simp] theorem raiseEnc_srcSize (c : EncErr) (s : State) : (raiseEnc c s).srcSize = s.srcSize := rfl
@[simp] theorem raiseEnc_draws (c : EncErr) (s : State) : (raiseEnc c s).draws = s.draws := rfl
@[simp] theorem raiseEnc_agenda (c : EncErr) (s : State) : (raiseEnc c s).agenda = s.agenda := rfl
@[simp] theorem raiseEnc_hostRdata (c : EncErr) (s : State) : (raiseEnc c s).hostRdata = s.hostRdata := rfl

/-! ### startDec -/

@[simp] theorem startDec_enc (s : State) : (startDec s).enc = s.enc := rfl
@[simp] theorem startDec_dec_status (s : State) : (startDec s).dec.status = UnitStatus.running := rfl
@[simp] theorem startDec_dec_err (s : State) : (startDec s).dec.err = DecErr.none := rfl
@[simp] theorem startDec_dec_srcOff (s : State) : (startDec s).dec.srcOff = s.dec.srcOff := rfl
@[simp] theorem startDec_dec_sc (s : State) : (startDec s).dec.sc = s.dec.srcOff := rfl
@[simp] theorem startDec_dec_oc (s : State) : (startDec s).dec.oc = 0 := rfl
@[simp] theorem startDec_src (s : State) : (startDec s).src = s.src := rfl
@[simp] theorem startDec_out (s : State) : (startDec s).out = s.out := rfl
@[simp] theorem startDec_inp (s : State) : (startDec s).inp = s.inp := rfl
@[simp] theorem startDec_cs (s : State) : (startDec s).cs = s.cs := rfl
@[simp] theorem startDec_srcSize (s : State) : (startDec s).srcSize = s.srcSize := rfl
@[simp] theorem startDec_draws (s : State) : (startDec s).draws = s.draws := rfl
@[simp] theorem startDec_agenda (s : State) : (startDec s).agenda = s.agenda := rfl
@[simp] theorem startDec_hostRdata (s : State) : (startDec s).hostRdata = s.hostRdata := rfl

/-! ### initEnc -/

@[simp] theorem initEnc_dec (s : State) : (initEnc s).dec = s.dec := rfl
@[simp] theorem initEnc_enc_status (s : State) : (initEnc s).enc.status = UnitStatus.running := rfl
@[simp] theorem initEnc_enc_err (s : State) : (initEnc s).enc.err = EncErr.none := rfl
@[simp] theorem initEnc_enc_inLen (s : State) : (initEnc s).enc.inLen = s.enc.inLen := rfl
@[simp] theorem initEnc_enc_pos (s : State) : (initEnc s).enc.pos = 0 := rfl
@[simp] theorem initEnc_enc_wp (s : State) : (initEnc s).enc.wp = 0 := rfl
@[simp] theorem initEnc_src (s : State) : (initEnc s).src = s.src := rfl
@[simp] theorem initEnc_out (s : State) : (initEnc s).out = s.out := rfl
@[simp] theorem initEnc_inp (s : State) : (initEnc s).inp = s.inp := rfl
@[simp] theorem initEnc_cs (s : State) : (initEnc s).cs = s.cs := rfl
@[simp] theorem initEnc_srcSize (s : State) : (initEnc s).srcSize = s.srcSize := rfl
@[simp] theorem initEnc_draws (s : State) : (initEnc s).draws = s.draws := rfl
@[simp] theorem initEnc_agenda (s : State) : (initEnc s).agenda = s.agenda := rfl
@[simp] theorem initEnc_hostRdata (s : State) : (initEnc s).hostRdata = s.hostRdata := rfl

/-! ### finishDec -/

@[simp] theorem finishDec_enc (s : State) : (finishDec s).enc = s.enc := rfl
@[simp] theorem finishDec_dec_status (s : State) : (finishDec s).dec.status = UnitStatus.done := rfl
@[simp] theorem finishDec_dec_err (s : State) : (finishDec s).dec.err = s.dec.err := rfl
@[simp] theorem finishDec_dec_srcOff (s : State) : (finishDec s).dec.srcOff = s.dec.srcOff := rfl
@[simp] theorem finishDec_dec_sc (s : State) : (finishDec s).dec.sc = s.dec.sc := rfl
@[simp] theorem finishDec_dec_oc (s : State) : (finishDec s).dec.oc = s.dec.oc := rfl
@[simp] theorem finishDec_src (s : State) : (finishDec s).src = s.src := rfl
@[simp] theorem finishDec_out (s : State) : (finishDec s).out = s.out := rfl
@[simp] theorem finishDec_inp (s : State) : (finishDec s).inp = s.inp := rfl
@[simp] theorem finishDec_cs (s : State) : (finishDec s).cs = s.cs := rfl
@[simp] theorem finishDec_srcSize (s : State) : (finishDec s).srcSize = s.srcSize := rfl
@[simp] theorem finishDec_draws (s : State) : (finishDec s).draws = s.draws := rfl
@[simp] theorem finishDec_agenda (s : State) : (finishDec s).agenda = s.agenda := rfl
@[simp] theorem finishDec_hostRdata (s : State) : (finishDec s).hostRdata = s.hostRdata := rfl

/-! ### commit -/

@[simp] theorem commit_enc (size written : Nat) (out : Memory) (draws : Nat) (s : State) : (commit size written out draws s).enc = s.enc := rfl
@[simp] theorem commit_dec_status (size written : Nat) (out : Memory) (draws : Nat) (s : State) : (commit size written out draws s).dec.status = s.dec.status := rfl
@[simp] theorem commit_dec_err (size written : Nat) (out : Memory) (draws : Nat) (s : State) : (commit size written out draws s).dec.err = s.dec.err := rfl
@[simp] theorem commit_dec_srcOff (size written : Nat) (out : Memory) (draws : Nat) (s : State) : (commit size written out draws s).dec.srcOff = s.dec.srcOff := rfl
@[simp] theorem commit_dec_sc (size written : Nat) (out : Memory) (draws : Nat) (s : State) : (commit size written out draws s).dec.sc = s.dec.sc + size := rfl
@[simp] theorem commit_dec_oc (size written : Nat) (out : Memory) (draws : Nat) (s : State) : (commit size written out draws s).dec.oc = s.dec.oc + written := rfl
@[simp] theorem commit_src (size written : Nat) (out : Memory) (draws : Nat) (s : State) : (commit size written out draws s).src = s.src := rfl
@[simp] theorem commit_out (size written : Nat) (out : Memory) (draws : Nat) (s : State) : (commit size written out draws s).out = out := rfl
@[simp] theorem commit_inp (size written : Nat) (out : Memory) (draws : Nat) (s : State) : (commit size written out draws s).inp = s.inp := rfl
@[simp] theorem commit_cs (size written : Nat) (out : Memory) (draws : Nat) (s : State) : (commit size written out draws s).cs = s.cs := rfl
@[simp] theorem commit_srcSize (size written : Nat) (out : Memory) (draws : Nat) (s : State) : (commit size written out draws s).srcSize = s.srcSize := rfl
@[simp] theorem commit_draws (size written : Nat) (out : Memory) (draws : Nat) (s : State) : (commit size written out draws s).draws = draws := rfl
@[simp] theorem commit_agenda (size written : Nat) (out : Memory) (draws : Nat) (s : State) : (commit size written out draws s).agenda = s.agenda := rfl
@[simp] theorem commit_hostRdata (size written : Nat) (out : Memory) (draws : Nat) (s : State) : (commit size written out draws s).hostRdata = s.hostRdata := rfl

/-! ### emit -/

@[simp] theorem emit_dec (v : Byte) (s : State) : (emit v s).dec = s.dec := rfl
@[simp] theorem emit_enc_status (v : Byte) (s : State) : (emit v s).enc.status = s.enc.status := rfl
@[simp] theorem emit_enc_err (v : Byte) (s : State) : (emit v s).enc.err = s.enc.err := rfl
@[simp] theorem emit_enc_inLen (v : Byte) (s : State) : (emit v s).enc.inLen = s.enc.inLen := rfl
@[simp] theorem emit_enc_pos (v : Byte) (s : State) : (emit v s).enc.pos = s.enc.pos := rfl
@[simp] theorem emit_enc_wp (v : Byte) (s : State) : (emit v s).enc.wp = s.enc.wp + 1 := rfl
@[simp] theorem emit_src (v : Byte) (s : State) : (emit v s).src = s.src := rfl
@[simp] theorem emit_out (v : Byte) (s : State) : (emit v s).out = s.out := rfl
@[simp] theorem emit_inp (v : Byte) (s : State) : (emit v s).inp = s.inp := rfl
@[simp] theorem emit_cs (v : Byte) (s : State) : (emit v s).cs = Memory.write s.cs s.enc.wp v := rfl
@[simp] theorem emit_srcSize (v : Byte) (s : State) : (emit v s).srcSize = s.srcSize := rfl
@[simp] theorem emit_draws (v : Byte) (s : State) : (emit v s).draws = s.draws := rfl
@[simp] theorem emit_agenda (v : Byte) (s : State) : (emit v s).agenda = s.agenda := rfl
@[simp] theorem emit_hostRdata (v : Byte) (s : State) : (emit v s).hostRdata = s.hostRdata := rfl

/-! ### popAgenda -/

@[simp] theorem popAgenda_dec (s : State) : (popAgenda s).dec = s.dec := rfl
@[simp] theorem popAgenda_enc (s : State) : (popAgenda s).enc = s.enc := rfl
@[simp] theorem popAgenda_src (s : State) : (popAgenda s).src = s.src := rfl
@[simp] theorem popAgenda_out (s : State) : (popAgenda s).out = s.out := rfl
@[simp] theorem popAgenda_inp (s : State) : (popAgenda s).inp = s.inp := rfl
@[simp] theorem popAgenda_cs (s : State) : (popAgenda s).cs = s.cs := rfl
@[simp] theorem popAgenda_srcSize (s : State) : (popAgenda s).srcSize = s.srcSize := rfl
@[simp] theorem popAgenda_draws (s : State) : (popAgenda s).draws = s.draws := rfl
@[simp] theorem popAgenda_agenda (s : State) : (popAgenda s).agenda = s.agenda.tail := rfl
@[simp] theorem popAgenda_hostRdata (s : State) : (popAgenda s).hostRdata = s.hostRdata := rfl

/-! ### applyReset -/

@[simp] theorem applyReset_src (s : State) : (applyReset s).src = s.src := rfl
@[simp] theorem applyReset_out (s : State) : (applyReset s).out = s.out := rfl
@[simp] theorem applyReset_inp (s : State) : (applyReset s).inp = s.inp := rfl
@[simp] theorem applyReset_cs (s : State) : (applyReset s).cs = s.cs := rfl
@[simp] theorem applyReset_srcSize (s : State) : (applyReset s).srcSize = s.srcSize := rfl
@[simp] theorem applyReset_draws (s : State) : (applyReset s).draws = s.draws := rfl
@[simp] theorem applyReset_agenda (s : State) : (applyReset s).agenda = s.agenda := rfl
@[simp] theorem applyReset_hostRdata (s : State) : (applyReset s).hostRdata = s.hostRdata := rfl
@[simp] theorem applyReset_dec (s : State) : (applyReset s).dec = Dec.reset := rfl
@[simp] theorem applyReset_enc (s : State) : (applyReset s).enc = Enc.reset := rfl

/-! ### setInLen -/

@[simp] theorem setInLen_dec (v : Nat) (s : State) : (setInLen v s).dec = s.dec := rfl
@[simp] theorem setInLen_enc_status (v : Nat) (s : State) : (setInLen v s).enc.status = s.enc.status := rfl
@[simp] theorem setInLen_enc_err (v : Nat) (s : State) : (setInLen v s).enc.err = s.enc.err := rfl
@[simp] theorem setInLen_enc_inLen (v : Nat) (s : State) : (setInLen v s).enc.inLen = BitVec.ofNat 17 v := rfl
@[simp] theorem setInLen_enc_pos (v : Nat) (s : State) : (setInLen v s).enc.pos = s.enc.pos := rfl
@[simp] theorem setInLen_enc_wp (v : Nat) (s : State) : (setInLen v s).enc.wp = s.enc.wp := rfl
@[simp] theorem setInLen_src (v : Nat) (s : State) : (setInLen v s).src = s.src := rfl
@[simp] theorem setInLen_out (v : Nat) (s : State) : (setInLen v s).out = s.out := rfl
@[simp] theorem setInLen_inp (v : Nat) (s : State) : (setInLen v s).inp = s.inp := rfl
@[simp] theorem setInLen_cs (v : Nat) (s : State) : (setInLen v s).cs = s.cs := rfl
@[simp] theorem setInLen_srcSize (v : Nat) (s : State) : (setInLen v s).srcSize = s.srcSize := rfl
@[simp] theorem setInLen_draws (v : Nat) (s : State) : (setInLen v s).draws = s.draws := rfl
@[simp] theorem setInLen_agenda (v : Nat) (s : State) : (setInLen v s).agenda = s.agenda := rfl
@[simp] theorem setInLen_hostRdata (v : Nat) (s : State) : (setInLen v s).hostRdata = s.hostRdata := rfl

/-! ### setSrcOff -/

@[simp] theorem setSrcOff_enc (v : Nat) (s : State) : (setSrcOff v s).enc = s.enc := rfl
@[simp] theorem setSrcOff_dec_status (v : Nat) (s : State) : (setSrcOff v s).dec.status = s.dec.status := rfl
@[simp] theorem setSrcOff_dec_err (v : Nat) (s : State) : (setSrcOff v s).dec.err = s.dec.err := rfl
@[simp] theorem setSrcOff_dec_srcOff (v : Nat) (s : State) : (setSrcOff v s).dec.srcOff = v % 2 ^ Config.srcAw s.srcSize := rfl
@[simp] theorem setSrcOff_dec_sc (v : Nat) (s : State) : (setSrcOff v s).dec.sc = s.dec.sc := rfl
@[simp] theorem setSrcOff_dec_oc (v : Nat) (s : State) : (setSrcOff v s).dec.oc = s.dec.oc := rfl
@[simp] theorem setSrcOff_src (v : Nat) (s : State) : (setSrcOff v s).src = s.src := rfl
@[simp] theorem setSrcOff_out (v : Nat) (s : State) : (setSrcOff v s).out = s.out := rfl
@[simp] theorem setSrcOff_inp (v : Nat) (s : State) : (setSrcOff v s).inp = s.inp := rfl
@[simp] theorem setSrcOff_cs (v : Nat) (s : State) : (setSrcOff v s).cs = s.cs := rfl
@[simp] theorem setSrcOff_srcSize (v : Nat) (s : State) : (setSrcOff v s).srcSize = s.srcSize := rfl
@[simp] theorem setSrcOff_draws (v : Nat) (s : State) : (setSrcOff v s).draws = s.draws := rfl
@[simp] theorem setSrcOff_agenda (v : Nat) (s : State) : (setSrcOff v s).agenda = s.agenda := rfl
@[simp] theorem setSrcOff_hostRdata (v : Nat) (s : State) : (setSrcOff v s).hostRdata = s.hostRdata := rfl

end Sys2Proof.Machine
end

