-- ==== Sys2Proof/Laws/Ops.lean ====
section
/-! SUPPORT. What each shared operation can do, said once. -/

namespace Sys2Proof.Machine

/-! ### The bytes of the run tokens -/

@[simp] theorem fillBytes_length (len : Nat) (v : Byte) : (fillBytes len v).length = len := by simp [fillBytes]

theorem fillBytes_get {len j : Nat} (h : j < len) (v : Byte) : (fillBytes len v)[j]? = some v := by
  simp [fillBytes, h]

@[simp] theorem wordFillBytes_length (len : Nat) (v0 v1 : Byte) : (wordFillBytes len v0 v1).length = 2 * len := by
  induction len with
  | zero => rfl
  | succ n ih => simp [wordFillBytes, ih]; omega

theorem wordFillBytes_get {len j : Nat} (h : j < len) (v0 v1 : Byte) :
    (wordFillBytes len v0 v1)[2 * j]? = some v0 ∧ (wordFillBytes len v0 v1)[2 * j + 1]? = some v1 := by
  induction len generalizing j with
  | zero => omega
  | succ n ih =>
    cases j with
    | zero => simp [wordFillBytes]
    | succ j =>
      have := ih (show j < n by omega)
      simpa [wordFillBytes, Nat.mul_add] using this

@[simp] theorem sequenceBytes_length (len : Nat) (v : Byte) : (sequenceBytes len v).length = len := by
  induction len generalizing v with
  | zero => rfl
  | succ n ih => simp [sequenceBytes, ih]

theorem sequenceBytes_get {len j : Nat} (h : j < len) (v : Byte) :
    (sequenceBytes len v)[j]? = some (v + BitVec.ofNat 8 j) := by
  induction len generalizing j v with
  | zero => omega
  | succ n ih =>
    cases j with
    | zero => simp [sequenceBytes]
    | succ j =>
      have e : v + 1#8 + BitVec.ofNat 8 j = v + BitVec.ofNat 8 (j + 1) := by
        rw [BitVec.add_assoc, Nat.add_comm j 1, BitVec.ofNat_add]
      simp [sequenceBytes, ih (show j < n by omega), e]

/-! ### The checks -/

/-- The capacity check passes. -/
theorem withRoom_fits {bytes : Nat} {s : State} (h : s.dec.oc + bytes ≤ Config.outCap) (act : Result) :
    withRoom bytes s act = act := if_neg (Nat.not_lt.2 h)

/-- The capacity check fails. -/
theorem withRoom_full {bytes : Nat} {s : State} (h : Config.outCap < s.dec.oc + bytes) (act : Result) :
    withRoom bytes s act = .next (raiseDec .outOverflow s) := if_pos h

/-- All the capacity check can do. -/
theorem withRoom_cases (bytes : Nat) (s : State) (act : Result) :
    (s.dec.oc + bytes ≤ Config.outCap ∧ withRoom bytes s act = act) ∨
      (Config.outCap < s.dec.oc + bytes ∧ withRoom bytes s act = .next (raiseDec .outOverflow s)) := by
  rcases Nat.lt_or_ge Config.outCap (s.dec.oc + bytes) with h | h
  · exact .inr ⟨h, withRoom_full h act⟩
  · exact .inl ⟨h, withRoom_fits h act⟩

/-- The address check never fails: the field has 16 bits (R146). -/
@[simp] theorem withAddr_eq (addr : Addr) (s : State) (act : Result) : withAddr addr s act = act := by
  have : addr.toNat < 65536 := addr.isLt
  exact if_neg (by simp only [Config.outCap]; omega)

/-! ### Writing and copying -/

/-- What `putRun` does: the token ends normally, the bytes stand at the output cursor, no free value is drawn. -/
theorem putRun_spec (size : Nat) (bs : List Byte) (s : State) :
    tokenDone size bs.length s (putRun size bs s) ∧ (putRun size bs s).draws = s.draws ∧
      ∀ j, j < bs.length → Memory.read? (putRun size bs s).out (s.dec.oc + j) = bs[j]? := by
  refine ⟨⟨rfl, rfl, rfl, rfl, ⟨rfl, rfl, rfl, rfl, rfl, rfl, rfl, rfl⟩, ?_⟩, rfl, ?_⟩
  · intro x hx
    rw [putRun, commit_out, Memory.read_writeRun, if_neg hx]
  · intro j hj
    rw [putRun, commit_out, Memory.read_writeRun, if_pos (by omega)]
    congr 1
    omega

/-- All a read of OUT can do: the byte written, or a fresh free byte. -/
theorem readOut_cases (out : Memory) (written draws i : Nat) :
    (∃ b, i < written ∧ Memory.read? out i = some b ∧ readOut out written draws i = (b, draws)) ∨
      ((i < written → Memory.read? out i = none) ∧
        readOut out written draws i = (Config.freeByte draws, draws + 1)) := by
  unfold readOut
  by_cases h : i < written
  · rw [if_pos h]
    cases hm : Memory.read? out i with
    | some b => exact .inl ⟨b, h, rfl, rfl⟩
    | none => exact .inr ⟨fun _ => rfl, rfl⟩
  · rw [if_neg h]
    exact .inr ⟨fun h' => absurd h' h, rfl⟩

/-- What the copy loop does. Bytes outside the destination stay; free values are drawn in order, at most one a byte; and
each destination byte is `f` of the byte its read sees: the byte of the final OUT at the read index when that lies in the
written part, else a free byte drawn by this loop. -/
theorem copyLoop_spec (idx : Nat → Nat) (f : Byte → Byte) (oc n j : Nat) (out : Memory) (draws : Nat) :
    (∀ x, ¬ (oc + j ≤ x ∧ x < oc + j + n) →
        Memory.read? (copyLoop idx f oc n j out draws).1 x = Memory.read? out x) ∧
      draws ≤ (copyLoop idx f oc n j out draws).2 ∧ (copyLoop idx f oc n j out draws).2 ≤ draws + n ∧
      ∀ i, j ≤ i → i < j + n →
        (∃ c, idx i < oc + i ∧ Memory.read? (copyLoop idx f oc n j out draws).1 (idx i) = some c ∧
            Memory.read? (copyLoop idx f oc n j out draws).1 (oc + i) = some (f c)) ∨
          ∃ d, (idx i < oc + i → idx i < oc + j ∧ Memory.read? out (idx i) = none) ∧
            draws ≤ d ∧ d < (copyLoop idx f oc n j out draws).2 ∧
            Memory.read? (copyLoop idx f oc n j out draws).1 (oc + i) = some (f (Config.freeByte d)) := by
  induction n generalizing j out draws with
  | zero => exact ⟨fun _ _ => rfl, Nat.le_refl _, Nat.le_refl _, fun i h h' => by omega⟩
  | succ n ih =>
    obtain ⟨t, ht⟩ : ∃ t, readOut out (oc + j) draws (idx j) = t := ⟨_, rfl⟩
    obtain ⟨hframe, hlo, hhi, hval⟩ := ih (j + 1) (Memory.write out (oc + j) (f t.1)) t.2
    have hdraws : draws ≤ t.2 ∧ t.2 ≤ draws + 1 := by
      rcases readOut_cases out (oc + j) draws (idx j) with ⟨b, -, -, h⟩ | ⟨-, h⟩ <;> rw [ht] at h <;> simp [h]
    have hself : copyLoop idx f oc (n + 1) j out draws
        = copyLoop idx f oc n (j + 1) (Memory.write out (oc + j) (f t.1)) t.2 := by
      rw [copyLoop, ht]
    rw [hself]
    refine ⟨fun x hx => ?_, by omega, by omega, fun i hji hin => ?_⟩
    · rw [hframe x (by omega), Memory.read_write, if_neg (by omega)]
    · rcases Nat.eq_or_lt_of_le hji with rfl | hlt
      · have hdest := hframe (oc + j) (by omega)
        rw [Memory.read_write_same] at hdest
        rcases readOut_cases out (oc + j) draws (idx j) with ⟨b, hidx, hb, h⟩ | ⟨hnone, h⟩
        · refine .inl ⟨b, hidx, ?_, ?_⟩
          · rw [hframe (idx j) (by omega), Memory.read_write, if_neg (by omega), hb]
          · rw [ht] at h
            rw [hdest, h]
        · rw [ht] at h
          exact .inr ⟨draws, fun h' => ⟨h', hnone h'⟩, Nat.le_refl _, by rw [h] at hlo ⊢; exact hlo, by rw [hdest, h]⟩
      · rcases hval i hlt (by omega) with h | ⟨d, hd, h1, h2, h3⟩
        · exact .inl h
        · refine .inr ⟨d, fun hidx => ?_, by omega, h2, h3⟩
          obtain ⟨hlt', hnone⟩ := hd hidx
          rw [Memory.read_write] at hnone
          split at hnone
          · simp at hnone
          · exact ⟨by omega, hnone⟩

/-- A copy whose reads all lie in the written part, all of it listed, draws no free value. -/
theorem copyLoop_draws_eq {idx : Nat → Nat} {oc n j : Nat} {out : Memory} (f : Byte → Byte) (draws : Nat)
    (hidx : ∀ i, j ≤ i → i < j + n → idx i < oc + i)
    (hout : ∀ a, a < oc + j → (Memory.read? out a).isSome = true) :
    (copyLoop idx f oc n j out draws).2 = draws := by
  induction n generalizing j out draws with
  | zero => rfl
  | succ n ih =>
    have hj := hidx j (Nat.le_refl _) (by omega)
    have ht : (readOut out (oc + j) draws (idx j)).2 = draws := by
      rcases readOut_cases out (oc + j) draws (idx j) with ⟨b, -, -, h⟩ | ⟨hnone, -⟩
      · rw [h]
      · have := hout (idx j) hj
        rw [hnone hj] at this
        simp at this
    rw [copyLoop, ht]
    refine ih draws (fun i h1 h2 => hidx i (by omega) (by omega)) (fun a ha => ?_)
    rw [Memory.read_write]
    split
    · rfl
    · exact hout a (by omega)

/-- The copy loop of `m + k` bytes is the loop of `m`, then that of `k` from where it stopped. -/
theorem copyLoop_add (idx : Nat → Nat) (f : Byte → Byte) (oc m k j : Nat) (out : Memory) (draws : Nat) :
    copyLoop idx f oc (m + k) j out draws =
      copyLoop idx f oc k (j + m) (copyLoop idx f oc m j out draws).1 (copyLoop idx f oc m j out draws).2 := by
  induction m generalizing j out draws with
  | zero => simp [copyLoop]
  | succ m ih =>
    rw [show m + 1 + k = m + k + 1 by omega, copyLoop, copyLoop, ih, show j + 1 + m = j + (m + 1) by omega]

/-- A copy loop whose reads all lie outside the written part draws a fresh free value for every byte. -/
theorem copyLoop_unwritten {idx : Nat → Nat} {oc n j : Nat} (f : Byte → Byte) (out : Memory) (draws : Nat)
    (hidx : ∀ i, j ≤ i → i < j + n → oc + i ≤ idx i) :
    (copyLoop idx f oc n j out draws).2 = draws + n ∧
      ∀ i, i < n → Memory.read? (copyLoop idx f oc n j out draws).1 (oc + j + i) =
        some (f (Config.freeByte (draws + i))) := by
  induction n generalizing j out draws with
  | zero => exact ⟨rfl, fun i h => absurd h (Nat.not_lt_zero i)⟩
  | succ n ih =>
    have hj := hidx j (Nat.le_refl _) (by omega)
    have ht : readOut out (oc + j) draws (idx j) = (Config.freeByte draws, draws + 1) := by
      rw [readOut, if_neg (by omega)]
    rw [copyLoop, ht]
    obtain ⟨hd, hb⟩ := ih (j := j + 1) (Memory.write out (oc + j) (f (Config.freeByte draws))) (draws + 1)
      fun i h1 h2 => hidx i (by omega) (by omega)
    refine ⟨by rw [hd]; omega, fun i hi => ?_⟩
    cases i with
    | zero =>
      refine (copyLoop_spec idx f oc n (j + 1) _ (draws + 1)).1 (oc + j) (by omega) |>.trans ?_
      exact Memory.read_write_same _ _ _
    | succ i =>
      have := hb i (by omega)
      rwa [show oc + (j + 1) + i = oc + j + (i + 1) by omega, show draws + 1 + i = draws + (i + 1) by omega] at this

/-- The copy loop keeps the canonical form of OUT. -/
theorem copyLoop_wf (idx : Nat → Nat) (f : Byte → Byte) (oc n j : Nat) {out : Memory} (draws : Nat)
    (h : Memory.wf out = true) : Memory.wf (copyLoop idx f oc n j out draws).1 = true := by
  induction n generalizing j out draws with
  | zero => exact h
  | succ n ih => exact ih (j + 1) _ (Memory.wf_write h _ _)

/-- The copy loop lists indices inside a range that holds its destination. -/
theorem copyLoop_below (idx : Nat → Nat) (f : Byte → Byte) (oc n j : Nat) {out : Memory} {m : Nat} (draws : Nat)
    (h : Memory.below out m = true) (hm : oc + j + n ≤ m) :
    Memory.below (copyLoop idx f oc n j out draws).1 m = true := by
  induction n generalizing j out draws with
  | zero => exact h
  | succ n ih => exact ih (j + 1) _ (Memory.below_write h (by omega) _) (by omega)

/-- What `putCopy` does. -/
theorem putCopy_spec (size len : Nat) (idx : Nat → Nat) (f : Byte → Byte) (s : State) :
    tokenDone size len s (putCopy size len idx f s) ∧
      s.draws ≤ (putCopy size len idx f s).draws ∧ (putCopy size len idx f s).draws ≤ s.draws + len ∧
      ∀ j, j < len →
        (∃ c, idx j < s.dec.oc + j ∧ Memory.read? (putCopy size len idx f s).out (idx j) = some c ∧
            Memory.read? (putCopy size len idx f s).out (s.dec.oc + j) = some (f c)) ∨
          ∃ d, (idx j < s.dec.oc + j → idx j < s.dec.oc ∧ Memory.read? s.out (idx j) = none) ∧
            s.draws ≤ d ∧ d < (putCopy size len idx f s).draws ∧
            Memory.read? (putCopy size len idx f s).out (s.dec.oc + j) = some (f (Config.freeByte d)) := by
  obtain ⟨hframe, hlo, hhi, hval⟩ := copyLoop_spec idx f s.dec.oc len 0 s.out s.draws
  exact ⟨⟨rfl, rfl, rfl, rfl, ⟨rfl, rfl, rfl, rfl, rfl, rfl, rfl, rfl⟩, hframe⟩, hlo, hhi,
    fun j hj => hval j (Nat.zero_le _) (by omega)⟩

/-! ### Fetching -/

/-- `Fetch` answers exactly below `SRC_SIZE` (R160). -/
theorem fetch_eq (s : State) (a : Nat) : fetch s a = if a < s.srcSize then some (srcByte s a) else none := rfl

/-- What the window holds: at each place the fetch from there, as far as it was asked for. -/
theorem fetchRun_get (s : State) (k a j : Nat) : (fetchRun s k a)[j]? = if j < k then fetch s (a + j) else none := by
  induction k generalizing a j with
  | zero => simp [fetchRun]
  | succ k ih =>
    rw [fetchRun, fetch_eq]
    by_cases h : a < s.srcSize
    · rw [if_pos h]
      cases j with
      | zero => simp [fetch_eq, h]
      | succ j =>
        have e : a + 1 + j = a + (j + 1) := by omega
        simp [ih, e]
    · have : ¬ a + j < s.srcSize := by omega
      simp [fetch_eq, h, this]

/-! ### Splitting a payload off -/

/-- What `splitExact` answers: the first `n` bytes and the rest. -/
theorem splitExact_some {n : Nat} {bs p r : List Byte} (h : splitExact n bs = some (p, r)) :
    bs = p ++ r ∧ p.length = n := by
  induction n generalizing bs p with
  | zero => simp_all [splitExact]
  | succ n ih =>
    cases bs with
    | nil => simp [splitExact] at h
    | cons b bs =>
      simp only [splitExact, Option.map_eq_some_iff] at h
      obtain ⟨⟨p', r'⟩, h1, h2⟩ := h
      obtain ⟨rfl, rfl⟩ := Prod.mk.inj h2
      obtain ⟨rfl, rfl⟩ := ih h1
      exact ⟨rfl, rfl⟩

theorem splitExact_append (p r : List Byte) : splitExact p.length (p ++ r) = some (p, r) := by
  induction p with
  | nil => rfl
  | cons b p ih => simp [splitExact, ih]

theorem splitExact_none {n : Nat} {bs : List Byte} : splitExact n bs = none ↔ bs.length < n := by
  induction n generalizing bs with
  | zero => simp [splitExact]
  | succ n ih =>
    cases bs with
    | nil => simp [splitExact]
    | cons b bs => simp [splitExact, ih]

/-! ### The measuring loop -/

/-- What `countWhile` answers: it stops at the fuel or at the first index that fails, and every index before passes. -/
theorem countWhile_spec (p : Nat → Bool) (fuel k : Nat) :
    k ≤ countWhile p fuel k ∧ countWhile p fuel k ≤ k + fuel ∧
      (∀ i, k ≤ i → i < countWhile p fuel k → p i = true) ∧
      (countWhile p fuel k < k + fuel → p (countWhile p fuel k) = false) := by
  induction fuel generalizing k with
  | zero => exact ⟨Nat.le_refl _, Nat.le_refl _, fun i h h' => absurd (Nat.lt_of_le_of_lt h h') (Nat.lt_irrefl _),
      fun h => absurd h (Nat.lt_irrefl _)⟩
  | succ f ih =>
    unfold countWhile
    by_cases hp : p k = true
    · rw [if_pos hp]
      obtain ⟨h1, h2, h3, h4⟩ := ih (k + 1)
      refine ⟨by omega, by omega, fun i hi hi' => ?_, fun h => h4 (by omega)⟩
      rcases Nat.eq_or_lt_of_le hi with rfl | hlt
      · exact hp
      · exact h3 i hlt hi'
    · rw [if_neg hp]
      exact ⟨Nat.le_refl _, by omega, fun i h h' => by omega, fun _ => by simpa using hp⟩

/-! ### Emitting -/

/-- What `emitAll` does: the bytes stand in CS from `enc.wp` on, `enc.wp` moves past them, nothing else changes. -/
theorem emitAll_spec (bs : List Byte) (s : State) :
    emitAll bs s = { s with cs := (emitAll bs s).cs, enc := { s.enc with wp := s.enc.wp + bs.length } } ∧
      ∀ x, Memory.read? (emitAll bs s).cs x =
        if s.enc.wp ≤ x ∧ x < s.enc.wp + bs.length then bs[x - s.enc.wp]? else Memory.read? s.cs x := by
  induction bs generalizing s with
  | nil =>
    refine ⟨rfl, fun x => ?_⟩
    rw [if_neg (by simp only [List.length_nil]; omega)]
    rfl
  | cons b bs ih =>
    obtain ⟨h1, h2⟩ := ih (emit b s)
    refine ⟨?_, fun x => ?_⟩
    · show emitAll bs (emit b s) = _
      rw [h1]
      simp only [emit, emitAll, List.length_cons, State.mk.injEq, Enc.mk.injEq, and_true, true_and]
      omega
    · show Memory.read? (emitAll bs (emit b s)).cs x = _
      rw [h2, emit_enc_wp, emit_cs, Memory.read_write]
      simp only [List.length_cons]
      by_cases hx : x = s.enc.wp
      · subst hx
        rw [if_neg (by omega), if_pos rfl, if_pos (by omega)]
        simp
      · by_cases hin : s.enc.wp + 1 ≤ x ∧ x < s.enc.wp + 1 + bs.length
        · have e : x - s.enc.wp = (x - (s.enc.wp + 1)) + 1 := by omega
          rw [if_pos hin, if_pos (by omega), e]
          simp
        · rw [if_neg hin, if_neg hx, if_neg (by omega)]

/-- Emitting keeps the canonical form of CS. -/
theorem emitAll_wf (bs : List Byte) {s : State} (h : Memory.wf s.cs = true) :
    Memory.wf (emitAll bs s).cs = true := by
  induction bs generalizing s with
  | nil => exact h
  | cons b bs ih => exact ih (s := emit b s) (Memory.wf_write h _ _)

/-! ### Starting and returning a read -/

/-- All a start of ENC can do (R101). -/
theorem startEnc_cases (s : State) :
    (s.enc.inLen.toNat = 0 ∧ startEnc s = raiseEnc .emptyInput (initEnc s)) ∨
      (Config.inMax < s.enc.inLen.toNat ∧ startEnc s = raiseEnc .inputTooLong (initEnc s)) ∨
      (1 ≤ s.enc.inLen.toNat ∧ s.enc.inLen.toNat ≤ Config.inMax ∧ startEnc s = initEnc s) := by
  unfold startEnc
  by_cases h0 : s.enc.inLen.toNat = 0
  · exact .inl ⟨h0, if_pos h0⟩
  · rw [if_neg h0]
    by_cases h1 : s.enc.inLen.toNat > Config.inMax
    · exact .inr (.inl ⟨h1, if_pos h1⟩)
    · exact .inr (.inr ⟨Nat.one_le_iff_ne_zero.2 h0, Nat.not_lt.1 h1, if_neg h1⟩)

/-- The buffer access of the host, in its three cases. -/
theorem hostAccess_cases (sp : Space) (a : Nat) (s : State) (act : Result) :
    (spaceSize s sp ≤ a ∧ hostAccess sp a s act = .fault (.noSuchIndex sp a)) ∨
    (a < spaceSize s sp ∧ unitRunning s (spaceOwner sp) = true ∧
      hostAccess sp a s act = .refused (.ownedWhileRunning (spaceOwner sp))) ∨
    (a < spaceSize s sp ∧ unitRunning s (spaceOwner sp) = false ∧ hostAccess sp a s act = act) := by
  unfold hostAccess
  by_cases h : a ≥ spaceSize s sp
  · exact .inl ⟨h, if_pos h⟩
  · by_cases hr : unitRunning s (spaceOwner sp) = true
    · exact .inr (.inl ⟨by omega, hr, by rw [if_neg h, if_pos hr]⟩)
    · exact .inr (.inr ⟨by omega, by simpa using hr, by rw [if_neg h, if_neg hr]⟩)

/-- Returning a read changes only the read-data register and the free-value counter. -/
theorem returnView_frame (v : View) (s : State) :
    returnView v s = { s with hostRdata := (returnView v s).hostRdata, draws := (returnView v s).draws } := by
  cases v <;> rfl

end Sys2Proof.Machine
end

