-- ==== Sys2Proof/Laws/PerInstr.lean ====
section
/-! SUPPORT. Laws of every instruction as syntax, one lemma per constructor: the size of its encoding (R67), and that
its first byte lies in exactly its own row of the opcode map (R63, R64). -/

namespace Sys2Proof.Laws

/-- R67: a token's encoding has the token's size. -/
def EncodedSize.Statement (i : Instr) : Prop := i.wf = true → (encode i).length = i.size

/-- R64: the first byte of a token's encoding is hit by the row of its mnemonic and by no other row. -/
def OpcodeRowOf.Statement (i : Instr) : Prop :=
  i.wf = true → ∃ b0 rest, encode i = b0 :: rest ∧ ∀ r ∈ opcodeRows, r.hits b0 = (r.mnemonic == i.mnemonic)

/-- R61: the lengths of the short form. -/
theorem shortLen_iff (len : Nat) : shortLen len = true ↔ 1 ≤ len ∧ len ≤ 32 := by
  rw [shortLen, Bool.and_eq_true, decide_eq_true_eq, decide_eq_true_eq]
  rfl

/-- R62: the lengths of the long form. -/
theorem longLen_iff (len : Nat) : longLen len = true ↔ 1 ≤ len ∧ len ≤ 1024 := by
  rw [longLen, Bool.and_eq_true, decide_eq_true_eq, decide_eq_true_eq]
  rfl

/-- A short header of one command: the row of its type and no other. -/
theorem shortHeader_row {c : Cmd} {len : Nat} (h : shortLen len = true) :
    ∃ b0, shortHeader c len = [b0] ∧ ∀ r ∈ opcodeRows, r.hits b0 =
      (r.mnemonic == (match c with
        | .literal => "Literal.S" | .fill => "Fill.S" | .wordFill => "WordFill.S" | .sequence => "Sequence.S"
        | .copyForward => "CopyForward.S" | .copyBitReversed => "CopyBitReversed.S"
        | .copyBackward => "CopyBackward.S")) := by
  obtain ⟨h1, h2⟩ := (shortLen_iff len).1 h
  refine ⟨_, rfl, ?_⟩
  interval_cases len <;> cases c <;> decide

/-- A long header of one command: the row of its type and no other. -/
theorem longHeader_row {c : Cmd} {len : Nat} (h : longLen len = true) :
    ∃ b0 b1, longHeader c len = [b0, b1] ∧ ∀ r ∈ opcodeRows, r.hits b0 =
      (r.mnemonic == (match c with
        | .literal => "Literal.L" | .fill => "Fill.L" | .wordFill => "WordFill.L" | .sequence => "Sequence.L"
        | .copyForward => "CopyForward.L" | .copyBitReversed => "CopyBitReversed.L"
        | .copyBackward => "CopyBackward.L")) := by
  obtain ⟨h1, h2⟩ := (longLen_iff len).1 h
  obtain ⟨q, hq⟩ : ∃ q, (len - 1) / 256 = q := ⟨_, rfl⟩
  have hq4 : q < 4 := by omega
  refine ⟨_, _, rfl, ?_⟩
  rw [hq]
  interval_cases q <;> cases c <;> decide

/-! ### EncodedSize -/

theorem EncodedSize.literalS (len : Nat) (bytes : List Byte) :
    EncodedSize.Statement (.literalS len bytes) := by
  intro h
  simp only [Instr.wf, Bool.and_eq_true, beq_iff_eq] at h
  simp [encode, shortHeader, Instr.size, h.2, Nat.add_comm]

theorem EncodedSize.fillS (len : Nat) (v : Byte) :
    EncodedSize.Statement (.fillS len v) := fun _ => rfl

theorem EncodedSize.wordFillS (len : Nat) (v0 : Byte) (v1 : Byte) :
    EncodedSize.Statement (.wordFillS len v0 v1) := fun _ => rfl

theorem EncodedSize.sequenceS (len : Nat) (v : Byte) :
    EncodedSize.Statement (.sequenceS len v) := fun _ => rfl

theorem EncodedSize.copyForwardS (len : Nat) (addr : Addr) :
    EncodedSize.Statement (.copyForwardS len addr) := fun _ => rfl

theorem EncodedSize.copyBitReversedS (len : Nat) (addr : Addr) :
    EncodedSize.Statement (.copyBitReversedS len addr) := fun _ => rfl

theorem EncodedSize.copyBackwardS (len : Nat) (addr : Addr) :
    EncodedSize.Statement (.copyBackwardS len addr) := fun _ => rfl

theorem EncodedSize.literalL (len : Nat) (bytes : List Byte) :
    EncodedSize.Statement (.literalL len bytes) := by
  intro h
  simp only [Instr.wf, Bool.and_eq_true, beq_iff_eq] at h
  simp [encode, longHeader, Instr.size, h.2]
  omega

theorem EncodedSize.fillL (len : Nat) (v : Byte) :
    EncodedSize.Statement (.fillL len v) := fun _ => rfl

theorem EncodedSize.wordFillL (len : Nat) (v0 : Byte) (v1 : Byte) :
    EncodedSize.Statement (.wordFillL len v0 v1) := fun _ => rfl

theorem EncodedSize.sequenceL (len : Nat) (v : Byte) :
    EncodedSize.Statement (.sequenceL len v) := fun _ => rfl

theorem EncodedSize.copyForwardL (len : Nat) (addr : Addr) :
    EncodedSize.Statement (.copyForwardL len addr) := fun _ => rfl

theorem EncodedSize.copyBitReversedL (len : Nat) (addr : Addr) :
    EncodedSize.Statement (.copyBitReversedL len addr) := fun _ => rfl

theorem EncodedSize.copyBackwardL (len : Nat) (addr : Addr) :
    EncodedSize.Statement (.copyBackwardL len addr) := fun _ => rfl

theorem EncodedSize.reserved7FC (b1 : Byte) :
    EncodedSize.Statement (.reserved7FC b1) := fun _ => rfl

theorem EncodedSize.reserved7FD (b1 : Byte) :
    EncodedSize.Statement (.reserved7FD b1) := fun _ => rfl

theorem EncodedSize.reserved7FE (b1 : Byte) :
    EncodedSize.Statement (.reserved7FE b1) := fun _ => rfl

theorem EncodedSize.terminator : EncodedSize.Statement .terminator := fun _ => rfl

/-! ### OpcodeRowOf -/

theorem OpcodeRowOf.literalS (len : Nat) (bytes : List Byte) :
    OpcodeRowOf.Statement (.literalS len bytes) := by
  intro h
  have h := (Bool.and_eq_true_iff.1 h).1
  obtain ⟨b0, e, hr⟩ := shortHeader_row (c := .literal) h
  exact ⟨b0, _, by rw [encode, e]; rfl, hr⟩

theorem OpcodeRowOf.fillS (len : Nat) (v : Byte) :
    OpcodeRowOf.Statement (.fillS len v) := by
  intro h
  obtain ⟨b0, e, hr⟩ := shortHeader_row (c := .fill) h
  exact ⟨b0, _, by rw [encode, e]; rfl, hr⟩

theorem OpcodeRowOf.wordFillS (len : Nat) (v0 : Byte) (v1 : Byte) :
    OpcodeRowOf.Statement (.wordFillS len v0 v1) := by
  intro h
  obtain ⟨b0, e, hr⟩ := shortHeader_row (c := .wordFill) h
  exact ⟨b0, _, by rw [encode, e]; rfl, hr⟩

theorem OpcodeRowOf.sequenceS (len : Nat) (v : Byte) :
    OpcodeRowOf.Statement (.sequenceS len v) := by
  intro h
  obtain ⟨b0, e, hr⟩ := shortHeader_row (c := .sequence) h
  exact ⟨b0, _, by rw [encode, e]; rfl, hr⟩

theorem OpcodeRowOf.copyForwardS (len : Nat) (addr : Addr) :
    OpcodeRowOf.Statement (.copyForwardS len addr) := by
  intro h
  obtain ⟨b0, e, hr⟩ := shortHeader_row (c := .copyForward) h
  exact ⟨b0, _, by rw [encode, e]; rfl, hr⟩

theorem OpcodeRowOf.copyBitReversedS (len : Nat) (addr : Addr) :
    OpcodeRowOf.Statement (.copyBitReversedS len addr) := by
  intro h
  obtain ⟨b0, e, hr⟩ := shortHeader_row (c := .copyBitReversed) h
  exact ⟨b0, _, by rw [encode, e]; rfl, hr⟩

theorem OpcodeRowOf.copyBackwardS (len : Nat) (addr : Addr) :
    OpcodeRowOf.Statement (.copyBackwardS len addr) := by
  intro h
  obtain ⟨b0, e, hr⟩ := shortHeader_row (c := .copyBackward) h
  exact ⟨b0, _, by rw [encode, e]; rfl, hr⟩

theorem OpcodeRowOf.literalL (len : Nat) (bytes : List Byte) :
    OpcodeRowOf.Statement (.literalL len bytes) := by
  intro h
  have h := (Bool.and_eq_true_iff.1 h).1
  obtain ⟨b0, b1, e, hr⟩ := longHeader_row (c := .literal) h
  exact ⟨b0, _, by rw [encode, e]; rfl, hr⟩

theorem OpcodeRowOf.fillL (len : Nat) (v : Byte) :
    OpcodeRowOf.Statement (.fillL len v) := by
  intro h
  obtain ⟨b0, b1, e, hr⟩ := longHeader_row (c := .fill) h
  exact ⟨b0, _, by rw [encode, e]; rfl, hr⟩

theorem OpcodeRowOf.wordFillL (len : Nat) (v0 : Byte) (v1 : Byte) :
    OpcodeRowOf.Statement (.wordFillL len v0 v1) := by
  intro h
  obtain ⟨b0, b1, e, hr⟩ := longHeader_row (c := .wordFill) h
  exact ⟨b0, _, by rw [encode, e]; rfl, hr⟩

theorem OpcodeRowOf.sequenceL (len : Nat) (v : Byte) :
    OpcodeRowOf.Statement (.sequenceL len v) := by
  intro h
  obtain ⟨b0, b1, e, hr⟩ := longHeader_row (c := .sequence) h
  exact ⟨b0, _, by rw [encode, e]; rfl, hr⟩

theorem OpcodeRowOf.copyForwardL (len : Nat) (addr : Addr) :
    OpcodeRowOf.Statement (.copyForwardL len addr) := by
  intro h
  obtain ⟨b0, b1, e, hr⟩ := longHeader_row (c := .copyForward) h
  exact ⟨b0, _, by rw [encode, e]; rfl, hr⟩

theorem OpcodeRowOf.copyBitReversedL (len : Nat) (addr : Addr) :
    OpcodeRowOf.Statement (.copyBitReversedL len addr) := by
  intro h
  obtain ⟨b0, b1, e, hr⟩ := longHeader_row (c := .copyBitReversed) h
  exact ⟨b0, _, by rw [encode, e]; rfl, hr⟩

theorem OpcodeRowOf.copyBackwardL (len : Nat) (addr : Addr) :
    OpcodeRowOf.Statement (.copyBackwardL len addr) := by
  intro h
  obtain ⟨b0, b1, e, hr⟩ := longHeader_row (c := .copyBackward) h
  exact ⟨b0, _, by rw [encode, e]; rfl, hr⟩

theorem OpcodeRowOf.reserved7FC (b1 : Byte) :
    OpcodeRowOf.Statement (.reserved7FC b1) := fun _ => ⟨_, _, rfl, by simp only [Instr.mnemonic]; decide⟩

theorem OpcodeRowOf.reserved7FD (b1 : Byte) :
    OpcodeRowOf.Statement (.reserved7FD b1) := fun _ => ⟨_, _, rfl, by simp only [Instr.mnemonic]; decide⟩

theorem OpcodeRowOf.reserved7FE (b1 : Byte) :
    OpcodeRowOf.Statement (.reserved7FE b1) := fun _ => ⟨_, _, rfl, by simp only [Instr.mnemonic]; decide⟩

theorem OpcodeRowOf.terminator : OpcodeRowOf.Statement .terminator := fun _ => ⟨_, _, rfl, by decide⟩

end Sys2Proof.Laws
end

