-- ==== Sys2Proof/Tests/Slice0.lean ====
section
/-! SUPPORT. Tests against the vectors of the spec (`95_test_vectors.md` and the worked examples of the rules), and a
witness for every statement that has hypotheses. -/

namespace Sys2Proof.Tests

open Sys2Proof.Machine

/-! ### WellFormed refuses, one ill-formed term for each check -/

theorem test_wf_short_zero : Instr.wf (.fillS 0 0x05#8) = false := by decide
theorem test_wf_short_33 : Instr.wf (.copyForwardS 33 0#16) = false := by decide
theorem test_wf_long_zero : Instr.wf (.sequenceL 0 0x05#8) = false := by decide
theorem test_wf_long_1025 : Instr.wf (.wordFillL 1025 0x01#8 0x02#8) = false := by decide
theorem test_wf_literalS_payload : Instr.wf (.literalS 3 [0x41#8, 0x42#8]) = false := by decide
theorem test_wf_literalL_payload : Instr.wf (.literalL 1 [0x41#8, 0x42#8]) = false := by decide

/-! ### Decoding of words written out from R61 to R63, one per constructor -/

theorem test_decode_literalS : decode [0b00000010#8, 0x41#8, 0x42#8, 0x43#8, 0xFF#8] =
    .ok (.literalS 3 [0x41#8, 0x42#8, 0x43#8]) [0xFF#8] := by decide
theorem test_decode_fillS : decode [0b00100011#8, 0x05#8] = .ok (.fillS 4 0x05#8) [] := by decide
theorem test_decode_wordFillS : decode [0b01000010#8, 0x01#8, 0x05#8] = .ok (.wordFillS 3 0x01#8 0x05#8) [] := by decide
theorem test_decode_sequenceS : decode [0b01100100#8, 0xFE#8] = .ok (.sequenceS 5 0xFE#8) [] := by decide
theorem test_decode_copyForwardS : decode [0b10000101#8, 0x04#8, 0x00#8] = .ok (.copyForwardS 6 0x0400#16) [] := by
  decide
theorem test_decode_copyBitReversedS : decode [0b10100100#8, 0x00#8, 0x05#8] = .ok (.copyBitReversedS 5 5#16) [] := by
  decide
theorem test_decode_copyBackwardS : decode [0b11011111#8, 0x00#8, 0x1F#8] = .ok (.copyBackwardS 32 31#16) [] := by
  decide
/-- R89: a non-canonical long header. -/
theorem test_decode_literalL : decode [0b11100000#8, 0b00000001#8, 0xFF#8, 0x07#8] =
    .ok (.literalL 2 [0xFF#8, 0x07#8]) [] := by decide
theorem test_decode_fillL : decode [0b11100101#8, 0b00000000#8, 0xAA#8] = .ok (.fillL 257 0xAA#8) [] := by decide
theorem test_decode_wordFillL : decode [0b11101010#8, 0b00000000#8, 0x12#8, 0x34#8] =
    .ok (.wordFillL 513 0x12#8 0x34#8) [] := by decide
theorem test_decode_sequenceL : decode [0b11101101#8, 0b00101011#8, 0x80#8] = .ok (.sequenceL 300 0x80#8) [] := by
  decide
theorem test_decode_copyForwardL : decode [0b11110001#8, 0b11110101#8, 0x00#8, 0x01#8] =
    .ok (.copyForwardL 502 1#16) [] := by decide
theorem test_decode_copyBitReversedL : decode [0b11110111#8, 0b11111111#8, 0x12#8, 0x34#8] =
    .ok (.copyBitReversedL 1024 0x1234#16) [] := by decide
theorem test_decode_copyBackwardL : decode [0b11111000#8, 0b01111101#8, 0x00#8, 0x7D#8] =
    .ok (.copyBackwardL 126 125#16) [] := by decide
theorem test_decode_reserved7FC : decode [0b11111100#8, 0x00#8, 0xFF#8] = .ok (.reserved7FC 0x00#8) [0xFF#8] := by decide
theorem test_decode_reserved7FD : decode [0b11111101#8, 0x12#8] = .ok (.reserved7FD 0x12#8) [] := by decide
theorem test_decode_reserved7FE : decode [0b11111110#8, 0xFF#8] = .ok (.reserved7FE 0xFF#8) [] := by decide
theorem test_decode_terminator : decode [0b11111111#8, 0x00#8] = .ok .terminator [0x00#8] := by decide

/-- R144, R160: what is cut off is named. -/
theorem test_decode_cut : decode [] = .headerCut ∧ decode [0xFC#8] = .headerCut ∧ decode [0x23#8] = .payloadCut 4 ∧
    decode [0x01#8, 0x01#8] = .payloadCut 2 ∧ decode [0x84#8, 0x00#8] = .payloadCut 5 := by decide

/-- Table H of the spec, encoding. -/
theorem test_hdrEncode_table :
    hdrEncode .literal 1 = [0x00#8] ∧ hdrEncode .literal 32 = [0x1F#8] ∧ hdrEncode .literal 33 = [0xE0#8, 0x20#8] ∧
    hdrEncode .fill 4 = [0x23#8] ∧ hdrEncode .fill 256 = [0xE4#8, 0xFF#8] ∧ hdrEncode .fill 257 = [0xE5#8, 0x00#8] ∧
    hdrEncode .wordFill 513 = [0xEA#8, 0x00#8] ∧ hdrEncode .sequence 300 = [0xED#8, 0x2B#8] ∧
    hdrEncode .copyForward 5 = [0x84#8] ∧ hdrEncode .copyBitReversed 1024 = [0xF7#8, 0xFF#8] ∧
    hdrEncode .copyBackward 32 = [0xDF#8] ∧ hdrEncode .copyBackward 1024 = [0xFB#8, 0xFF#8] := by decide

/-- Table H of the spec, decoding; the reserved headers have no command. -/
theorem test_hdrDecode_table :
    hdrDecode 0x1F#8 0#8 = some (.literal, 32, 1) ∧ hdrDecode 0xDF#8 0#8 = some (.copyBackward, 32, 1) ∧
    hdrDecode 0xE0#8 0x00#8 = some (.literal, 1, 2) ∧ hdrDecode 0xE4#8 0x03#8 = some (.fill, 4, 2) ∧
    hdrDecode 0xE7#8 0xFF#8 = some (.fill, 1024, 2) ∧ hdrDecode 0xFB#8 0xFF#8 = some (.copyBackward, 1024, 2) ∧
    hdrDecode 0xFC#8 0x00#8 = none ∧ hdrDecode 0xFD#8 0x12#8 = none ∧ hdrDecode 0xFE#8 0xFF#8 = none := by decide

/-- Section 2.1 of the vectors, and rows 0x10 and 0xF0 of the table of R81. -/
theorem test_bitrev_table :
    ([0x00, 0x01, 0x02, 0x03, 0x07, 0x09, 0x0F, 0x10, 0x1E, 0x55, 0x80, 0x96, 0xA5, 0xFE, 0xFF].map fun x : Nat =>
      (bitrev (BitVec.ofNat 8 x)).toNat) =
      [0x00, 0x80, 0x40, 0xC0, 0xE0, 0x90, 0xF0, 0x08, 0x78, 0xAA, 0x01, 0x69, 0xA5, 0x7F, 0xFF] ∧
    ((List.range 16).map fun x => (bitrev (BitVec.ofNat 8 (0x10 + x))).toNat) =
      [0x08, 0x88, 0x48, 0xC8, 0x28, 0xA8, 0x68, 0xE8, 0x18, 0x98, 0x58, 0xD8, 0x38, 0xB8, 0x78, 0xF8] ∧
    ((List.range 16).map fun x => (bitrev (BitVec.ofNat 8 (0xF0 + x))).toNat) =
      [0x0F, 0x8F, 0x4F, 0xCF, 0x2F, 0xAF, 0x6F, 0xEF, 0x1F, 0x9F, 0x5F, 0xDF, 0x3F, 0xBF, 0x7F, 0xFF] := by decide

/-! ### One token step -/

/-- DEC RUNNING with `out` already produced and `stream` from index 0 of a SRC of just that size. -/
def decAt (out stream : List Byte) : State :=
  { State.reset with
    src := Memory.cells 0 stream, out := Memory.cells 0 out, srcSize := stream.length,
    dec := { Dec.reset with status := .running, oc := out.length } }

/-- What a step of DEC shows: stream cursor, output cursor, status, error code and the bytes of OUT. -/
def shown (r : Result) : Option (Nat × Nat × UnitStatus × DecErr × List Byte) :=
  match r with
  | .next t => some (t.dec.sc, t.dec.oc, t.dec.status, t.dec.err, t.out.map (·.2))
  | .fault _ => none
  | .refused _ => none

/-- R148, worked example. -/
theorem test_step_literalS : shown (step (decAt [] [0x01#8, 0x01#8, 0x02#8, 0xFF#8])) =
    some (3, 2, .running, .none, [0x01#8, 0x02#8]) := by decide
theorem test_step_literalL : shown (step (decAt [0x09#8] [0xE0#8, 0x01#8, 0x01#8, 0xFF#8])) =
    some (4, 3, .running, .none, [0x09#8, 0x01#8, 0xFF#8]) := by decide
/-- R149, worked example; V5. -/
theorem test_step_fillS : shown (step (decAt [] [0x23#8, 0x05#8])) =
    some (2, 4, .running, .none, [0x05#8, 0x05#8, 0x05#8, 0x05#8]) := by decide
theorem test_step_fillL : shown (step (decAt [] [0xE4#8, 0x03#8, 0x05#8, 0xFF#8])) =
    some (3, 4, .running, .none, [0x05#8, 0x05#8, 0x05#8, 0x05#8]) := by decide
/-- R150, worked example. -/
theorem test_step_wordFillS : shown (step (decAt [] [0x42#8, 0x01#8, 0x05#8])) =
    some (3, 6, .running, .none, [0x01#8, 0x05#8, 0x01#8, 0x05#8, 0x01#8, 0x05#8]) := by decide
theorem test_step_wordFillL : shown (step (decAt [0x07#8] [0xE8#8, 0x01#8, 0x01#8, 0x05#8])) =
    some (4, 5, .running, .none, [0x07#8, 0x01#8, 0x05#8, 0x01#8, 0x05#8]) := by decide
/-- R151, worked example. -/
theorem test_step_sequenceS : shown (step (decAt [] [0x64#8, 0xFE#8])) =
    some (2, 5, .running, .none, [0xFE#8, 0xFF#8, 0x00#8, 0x01#8, 0x02#8]) := by decide
theorem test_step_sequenceL : shown (step (decAt [] [0xEC#8, 0x02#8, 0xFF#8])) =
    some (3, 3, .running, .none, [0xFF#8, 0x00#8, 0x01#8]) := by decide
/-- R152, worked example (S5). -/
theorem test_step_copyForwardS : shown (step (decAt [0x41#8, 0x42#8, 0x43#8] [0x84#8, 0x00#8, 0x00#8])) =
    some (3, 8, .running, .none, [0x41#8, 0x42#8, 0x43#8, 0x41#8, 0x42#8, 0x43#8, 0x41#8, 0x42#8]) := by decide
theorem test_step_copyForwardL : shown (step (decAt [0x41#8, 0x42#8] [0xF0#8, 0x02#8, 0x00#8, 0x01#8])) =
    some (4, 5, .running, .none, [0x41#8, 0x42#8, 0x42#8, 0x42#8, 0x42#8]) := by decide
/-- R153, V14 (overlap). -/
theorem test_step_copyBitReversedS : shown (step (decAt [0x01#8] [0xA3#8, 0x00#8, 0x00#8])) =
    some (3, 5, .running, .none, [0x01#8, 0x80#8, 0x01#8, 0x80#8, 0x01#8]) := by decide
theorem test_step_copyBitReversedL : shown (step (decAt [0x01#8, 0x02#8] [0xF4#8, 0x05#8, 0x00#8, 0x00#8])) =
    some (4, 8, .running, .none, [0x01#8, 0x02#8, 0x80#8, 0x40#8, 0x01#8, 0x02#8, 0x80#8, 0x40#8]) := by decide
/-- R154, V16. -/
theorem test_step_copyBackwardS : shown (step (decAt [0x01#8, 0x02#8, 0x03#8] [0xC2#8, 0x00#8, 0x02#8])) =
    some (3, 6, .running, .none, [0x01#8, 0x02#8, 0x03#8, 0x03#8, 0x02#8, 0x01#8]) := by decide
theorem test_step_copyBackwardL : shown (step (decAt [0x01#8, 0x02#8, 0x03#8] [0xF8#8, 0x01#8, 0x00#8, 0x01#8])) =
    some (4, 5, .running, .none, [0x01#8, 0x02#8, 0x03#8, 0x02#8, 0x01#8]) := by decide
/-- R155. -/
theorem test_step_reserved7FC : shown (step (decAt [] [0xFC#8, 0x00#8, 0xFF#8])) =
    some (0, 0, .failed, .reservedType, []) := by decide
theorem test_step_reserved7FD : shown (step (decAt [0x05#8] [0xFD#8, 0x12#8, 0xFF#8])) =
    some (0, 1, .failed, .reservedType, [0x05#8]) := by decide
theorem test_step_reserved7FE : shown (step (decAt [] [0xFE#8, 0xFF#8, 0xFF#8])) =
    some (0, 0, .failed, .reservedType, []) := by decide
/-- R143. -/
theorem test_step_terminator : shown (step (decAt [0x05#8] [0xFF#8])) = some (0, 1, .done, .none, [0x05#8]) := by decide

/-- V21: the two unknown bytes are one draw; the third is written. -/
theorem test_step_unwritten_read : shown (step (decAt [0x11#8, 0x22#8] [0xC2#8, 0x00#8, 0x03#8])) =
    some (3, 5, .running, .none, [0x11#8, 0x22#8, Config.freeByte 0, Config.freeByte 0, 0x22#8]) := rfl

/-- F1, F2, F3. -/
theorem test_step_copy_range : shown (step (decAt [] [0x84#8, 0xFF#8, 0xFE#8, 0xFF#8])) =
    some (0, 0, .failed, .copyRange, []) := by decide
theorem test_step_copy_range_reversed : shown (step (decAt [] [0xA4#8, 0xFF#8, 0xFE#8, 0xFF#8])) =
    some (0, 0, .failed, .copyRange, []) := by decide
theorem test_step_back_underflow : shown (step (decAt [0x01#8, 0x02#8, 0x03#8] [0xC3#8, 0x00#8, 0x02#8])) =
    some (0, 3, .failed, .backUnderflow, [0x01#8, 0x02#8, 0x03#8]) := by decide
/-- F13, F14, F16, F17. -/
theorem test_step_src_range :
    shown (step (decAt [] [0x23#8])) = some (0, 0, .failed, .srcRange, []) ∧
    shown (step (decAt [] [0x01#8, 0x01#8])) = some (0, 0, .failed, .srcRange, []) ∧
    shown (step (decAt [] [0xFC#8])) = some (0, 0, .failed, .srcRange, []) ∧
    shown (step (decAt [] [0x84#8, 0x00#8])) = some (0, 0, .failed, .srcRange, []) ∧
    shown (step (decAt [] [])) = some (0, 0, .failed, .srcRange, []) := by
  refine ⟨?_, ?_, ?_, ?_, ?_⟩ <;> decide

/-- DEC RUNNING at an output cursor, with `stream` in SRC. -/
def decFull (oc : Nat) (stream : List Byte) : State :=
  { decAt [] stream with dec := { Dec.reset with status := .running, oc := oc } }

/-- F8, F9, F10, F11 at their output cursors, and a payload that SRC cuts off at a full OUT (R186). -/
theorem test_step_capacity :
    shown (step (decFull 65536 [0x20#8, 0x00#8, 0xFF#8])) = some (0, 65536, .failed, .outOverflow, []) ∧
    shown (step (decFull 65536 [0x84#8, 0xFF#8, 0xFF#8, 0xFF#8])) = some (0, 65536, .failed, .outOverflow, []) ∧
    shown (step (decFull 65536 [0xFC#8, 0x00#8])) = some (0, 65536, .failed, .reservedType, []) ∧
    shown (step (decFull 64512 [0xEB#8, 0xFF#8, 0x12#8, 0x34#8])) = some (0, 64512, .failed, .outOverflow, []) ∧
    shown (step (decFull 65536 [0x20#8])) = some (0, 65536, .failed, .outOverflow, []) := by
  refine ⟨?_, ?_, ?_, ?_, ?_⟩ <;> decide

/-! ### The host's two checks: the decoder on the table's words, and the first step after reset -/

theorem test_table_words :
    [(0x00, 8), (0x20, 8), (0x40, 8), (0x60, 8), (0x80, 8), (0xA0, 8), (0xC0, 8), (0xE0, 8), (0xE4, 8), (0xE8, 8),
      (0xEC, 8), (0xF0, 8), (0xF4, 8), (0xF8, 8), (0xFC, 8), (0xFD, 8), (0xFE, 8), (0xFF, 8)].map
        (fun p : Nat × Nat => decodeTableWord p.2 p.1) =
    [some (.literalS 1 [0#8]), some (.fillS 1 0#8), some (.wordFillS 1 0#8 0#8), some (.sequenceS 1 0#8),
      some (.copyForwardS 1 0#16), some (.copyBitReversedS 1 0#16), some (.copyBackwardS 1 0#16),
      some (.literalL 1 [0#8]), some (.fillL 1 0#8), some (.wordFillL 1 0#8 0#8), some (.sequenceL 1 0#8),
      some (.copyForwardL 1 0#16), some (.copyBitReversedL 1 0#16), some (.copyBackwardL 1 0#16),
      some (.reserved7FC 0#8), some (.reserved7FD 0#8), some (.reserved7FE 0#8), some .terminator] := by decide

theorem test_withFetchWord_runs_it :
    step (State.reset.withFetchWord 8 0xE4) = exec (.fillL 1 0#8) (State.reset.withFetchWord 8 0xE4) ∧
    step (State.reset.withFetchWord 8 0x80) = exec (.copyForwardS 1 0#16) (State.reset.withFetchWord 8 0x80) :=
  ⟨rfl, rfl⟩

/-! ### ENC -/

/-- The input `bs` as the matchers see it. -/
def inputOf (bs : List Byte) (i : Nat) : Byte := bs[i]?.getD 0#8

/-- The stream of an input. -/
def streamOf (bs : List Byte) : List Byte := compress (inputOf bs) bs.length

/-- R105, R106, R107: worked examples. -/
theorem test_runs :
    byteRun (inputOf [0x07#8, 0x07#8, 0x07#8]) 3 0 = 3 ∧
    wordRun (inputOf [0x01#8, 0x05#8, 0x01#8, 0x05#8, 0x01#8, 0x05#8, 0x01#8]) 7 0 = 3 ∧
    wordRun (inputOf [0x01#8, 0x05#8]) 2 1 = 0 ∧
    arithRun (inputOf [0xFE#8, 0xFF#8, 0x00#8, 0x01#8, 0x02#8]) 5 0 = 5 := by decide

/-- R110, R111, R112: worked examples. -/
theorem test_matches :
    fwdMatch (inputOf [0x01#8, 0x03#8, 0x07#8, 0x02#8, 0x09#8, 0x01#8, 0x03#8, 0x07#8, 0x02#8, 0x09#8]) 10 5 0 = 5 ∧
    revMatch (inputOf [0x01#8, 0x03#8, 0x07#8, 0x02#8, 0x09#8, 0x80#8, 0xC0#8, 0xE0#8, 0x40#8, 0x90#8]) 10 5 0 = 5 ∧
    bwdMatch (inputOf [0x01#8, 0x03#8, 0x07#8, 0x02#8, 0x09#8, 0x09#8, 0x02#8, 0x07#8, 0x03#8, 0x01#8]) 10 5 4 = 5 := by
  decide

/-- E5, E7, E8, E10, E11, E12, E15. -/
theorem test_compress_runs :
    streamOf [0x07#8, 0x07#8, 0x07#8] = [0x22#8, 0x07#8, 0xFF#8] ∧
    streamOf [0x05#8, 0x05#8, 0x05#8, 0x05#8, 0x01#8, 0x02#8] = [0x23#8, 0x05#8, 0x01#8, 0x01#8, 0x02#8, 0xFF#8] ∧
    streamOf [0x09#8, 0x07#8, 0x07#8, 0x07#8, 0x01#8] =
      [0x00#8, 0x09#8, 0x22#8, 0x07#8, 0x00#8, 0x01#8, 0xFF#8] ∧
    streamOf [0x01#8, 0x05#8, 0x01#8, 0x05#8, 0x01#8, 0x05#8, 0x01#8] =
      [0x42#8, 0x01#8, 0x05#8, 0x00#8, 0x01#8, 0xFF#8] ∧
    streamOf [0x03#8, 0x04#8, 0x05#8, 0x06#8, 0x06#8, 0x06#8] = [0x63#8, 0x03#8, 0x01#8, 0x06#8, 0x06#8, 0xFF#8] ∧
    streamOf [0xFE#8, 0xFF#8, 0x00#8, 0x01#8, 0x02#8] = [0x64#8, 0xFE#8, 0xFF#8] := by decide

/-- E31, E33, E34. -/
theorem test_compress_copies :
    streamOf [0x01#8, 0x03#8, 0x07#8, 0x02#8, 0x09#8, 0x01#8, 0x03#8, 0x07#8, 0x02#8, 0x09#8] =
      [0x04#8, 0x01#8, 0x03#8, 0x07#8, 0x02#8, 0x09#8, 0x84#8, 0x00#8, 0x00#8, 0xFF#8] ∧
    streamOf [0x01#8, 0x03#8, 0x07#8, 0x02#8, 0x09#8, 0x80#8, 0xC0#8, 0xE0#8, 0x40#8, 0x90#8] =
      [0x04#8, 0x01#8, 0x03#8, 0x07#8, 0x02#8, 0x09#8, 0xA4#8, 0x00#8, 0x00#8, 0xFF#8] ∧
    streamOf [0x01#8, 0x03#8, 0x07#8, 0x02#8, 0x09#8, 0x09#8, 0x02#8, 0x07#8, 0x03#8, 0x01#8] =
      [0x04#8, 0x01#8, 0x03#8, 0x07#8, 0x02#8, 0x09#8, 0xC4#8, 0x00#8, 0x04#8, 0xFF#8] := by decide

/-- ENC RUNNING on the input `bs` with the cursors given and `cs` produced. -/
def encAt (bs cs : List Byte) (pos : Nat) : State :=
  { State.reset with
    inp := Memory.cells 0 bs, cs := Memory.cells 0 cs,
    enc := { status := .running, err := .none, inLen := BitVec.ofNat 17 bs.length, pos := pos, wp := cs.length } }

/-- What a step shows of ENC. -/
def shownEnc (r : Result) : Option (Nat × Nat × UnitStatus × EncErr × List Byte) :=
  match r with
  | .next t => some (t.enc.pos, t.enc.wp, t.enc.status, t.enc.err, t.cs.map (·.2))
  | .fault _ => none
  | .refused _ => none

/-- R137: the second iteration of the worked trace. -/
theorem test_step_encIteration :
    shownEnc (step (encAt [0x05#8, 0x05#8, 0x05#8, 0x05#8, 0x01#8, 0x02#8] [0x23#8, 0x05#8] 4)) =
      some (6, 5, .running, .none, [0x23#8, 0x05#8, 0x01#8, 0x01#8, 0x02#8]) := by decide
/-- R129. -/
theorem test_step_encTerminator :
    shownEnc (step (encAt [0x07#8, 0x07#8, 0x07#8] [0x22#8, 0x07#8] 3)) =
      some (3, 3, .done, .none, [0x22#8, 0x07#8, 0xFF#8]) := by decide

/-! ### The host -/

/-- A state whose next move is the host's. -/
def hostMoves (c : HostCmd) (s : State) : State := { s with agenda := [.host c] }

/-- ENC IDLE with this `ENC_IN_LEN`. -/
def withInLen (n : Nat) : State := { State.reset with enc := { Enc.reset with inLen := BitVec.ofNat 17 n } }

/-- E80, E81, E82. -/
theorem test_start_enc :
    shownEnc (step (hostMoves (.writeReg .enc 0 1) (withInLen 0))) = some (0, 0, .failed, .emptyInput, []) ∧
    shownEnc (step (hostMoves (.writeReg .enc 0 1) (withInLen 65537))) = some (0, 0, .failed, .inputTooLong, []) ∧
    shownEnc (step (hostMoves (.writeReg .enc 0 1) (withInLen 65536))) = some (0, 0, .running, .none, []) := by
  refine ⟨?_, ?_, ?_⟩ <;> decide

/-- P6 step 7: the stream cursor starts at `DEC_SRC_OFF`. -/
theorem test_start_dec :
    shown (step (hostMoves (.writeReg .dec 0 1) { State.reset with dec := { Dec.reset with srcOff := 0x100 } })) =
      some (0x100, 0, .running, .none, []) := by decide

/-- What a step leaves as read data. -/
def shownData (r : Result) : Option Nat :=
  match r with
  | .next t => some t.hostRdata
  | .fault _ => none
  | .refused _ => none

/-- R29, R35: the registers after a decode of two bytes. -/
theorem test_read_registers :
    shownData (step (hostMoves (.readReg .dec 1) { decAt [0x01#8, 0x02#8] [] with
      dec := { Dec.reset with status := .done, oc := 2 } })) = some 2 ∧
    shownData (step (hostMoves (.readReg .dec 4) { decAt [0x01#8, 0x02#8] [] with
      dec := { Dec.reset with status := .done, oc := 2 } })) = some 2 ∧
    shownData (step (hostMoves (.readMem .out 1) { decAt [0x01#8, 0x02#8] [] with
      dec := { Dec.reset with status := .done, oc := 2 } })) = some 2 ∧
    shownData (step (hostMoves (.readReg .dec 0) State.reset)) = some 0 := by decide

/-! ### Witnesses: every hypothesis of every statement can be met -/

theorem witness_DecodeEncodeRoundTrip :
    Instr.wf (.literalS 1 [0xFF#8]) = true ∧ Instr.wf (.fillS 32 0x05#8) = true ∧
    Instr.wf (.copyBackwardL 1024 0xFFFF#16) = true ∧ Instr.wf (.reserved7FE 0xFF#8) = true := by decide
theorem witness_EncodeDecodeRoundTrip :
    decode [0xE4#8, 0x03#8, 0x05#8, 0xFF#8] = .ok (.fillL 4 0x05#8) [0xFF#8] := by decide
theorem witness_DecodeStopsOnlyWhenBytesEnd :
    decode [0xE3#8] = .headerCut ∧ decode [0x1F#8] = .payloadCut 32 ∧ decode [0xF8#8, 0x20#8, 0x00#8] = .payloadCut 33 := by
  decide
theorem witness_HeaderRoundTrip :
    hdrEncode .sequence 32 = [0x7F#8] ∧ hdrDecode 0x7F#8 0x99#8 = some (.sequence, 32, 1) ∧
    hdrEncode .sequence 33 = [0xEC#8, 0x20#8] ∧ hdrDecode 0xEC#8 0x20#8 = some (.sequence, 33, 2) := by decide
theorem witness_HeaderNeverReservedOrTerminator : (1 ≤ 1024 ∧ 1024 ≤ 1024) ∧ hdrEncode .copyBackward 1024 =
    [0xFB#8, 0xFF#8] := by decide
theorem witness_NonCanonicalHeaderDecodes : (1 ≤ 32 ∧ 32 ≤ 32) ∧ longHeader .fill 32 = [0xE4#8, 0x1F#8] := by decide
theorem witness_ResetRegisters : (hostMoves .reset (decAt [] [0xFF#8])).agenda = [.host .reset] := rfl
theorem witness_EncStartOutcomes :
    (hostMoves (.writeReg .enc 0 1) (withInLen 6)).agenda = [.host (.writeReg .enc 0 1)] ∧ 1 % 2 = 1 ∧
    (hostMoves (.writeReg .enc 0 1) (withInLen 6)).enc.status ≠ .running := by decide
theorem witness_DecStartInitialises :
    (hostMoves (.writeReg .dec 0 3) State.reset).agenda = [.host (.writeReg .dec 0 3)] ∧ 3 % 2 = 1 ∧
    (hostMoves (.writeReg .dec 0 3) State.reset).dec.status ≠ .running := by decide

/-- A RUNNING DEC, for the moves the host must not make. -/
def runningDec : State := decAt [0x41#8] [0x20#8, 0x07#8, 0xFF#8]

theorem witness_HostRefusedWhileRunning :
    (∀ c, unitRunning (hostMoves c runningDec) .dec = true) ∧ 1 % 2 = 1 ∧
    spaceOwner .src = .dec ∧ 2 < spaceSize (hostMoves (.writeMem .src 2 0#8) runningDec) .src ∧
    2 < spaceSize (hostMoves (.readMem .src 2) runningDec) .src ∧
    spaceOwner .out = .dec ∧ 65535 < spaceSize (hostMoves (.readMem .out 65535) runningDec) .out :=
  ⟨fun _ => rfl, by decide, rfl, by decide, by decide, rfl, by decide⟩
theorem witness_HostReadsRegisters :
    registerShows (hostMoves (.readReg .enc 3) (withInLen 6)) .enc 3 6 ∧
    registerShows (hostMoves (.readReg .dec 5) State.reset) .dec 5 0 ∧
    registerOpen (hostMoves (.readReg .dec 4) runningDec) .dec 4 17 :=
  ⟨.inr (.inr (.inr (.inl ⟨rfl, rfl, rfl⟩))), by unfold registerShows; simp, .inr (.inr (.inr ⟨rfl, rfl, .inl rfl, rfl⟩))⟩
theorem witness_HostWritesRegisters :
    (hostMoves (.writeReg .enc 3 6) State.reset).enc.status ≠ .running ∧
    (hostMoves (.writeReg .dec 3 65535) State.reset).dec.status ≠ .running ∧
    (hostMoves (.writeReg .enc 0 2) runningDec).agenda = [.host (.writeReg .enc 0 2)] ∧ 2 % 2 = 0 := by decide
theorem witness_HostWritesBuffers :
    65535 < spaceSize (hostMoves (.writeMem .inp 65535 0xAA#8) State.reset) .inp ∧
    unitRunning (hostMoves (.writeMem .inp 65535 0xAA#8) State.reset) (spaceOwner .inp) = false ∧
    spaceSize (hostMoves (.writeMem .inp 65536 0xAA#8) State.reset) .inp ≤ 65536 := by decide
/-- A DEC that is DONE with two bytes, and a stream byte in SRC. -/
def doneDec : State := { decAt [0x41#8, 0x42#8, 0x43#8] [0xFF#8] with dec := { Dec.reset with status := .done, oc := 2 } }

theorem witness_HostReadsBuffers_defined :
    0 < spaceSize (hostMoves (.readMem .src 0) doneDec) .src ∧
    unitRunning (hostMoves (.readMem .src 0) doneDec) (spaceOwner .src) = false ∧
    Memory.read? (spaceOf (hostMoves (.readMem .src 0) doneDec) .src) 0 = some 0xFF#8 ∧ byteShows doneDec .src 0 ∧
    Memory.read? (spaceOf doneDec .out) 1 = some 0x42#8 ∧ byteShows doneDec .out 1 :=
  ⟨by decide, by decide, by decide, .inl rfl, by decide, .inr (.inr (.inl ⟨rfl, rfl, by decide⟩))⟩
theorem witness_HostReadsBuffers_open :
    ¬ byteShows doneDec .out 2 ∧ 2 < spaceSize doneDec .out ∧
    Memory.read? (spaceOf doneDec .inp) 65535 = none ∧ 65535 < spaceSize doneDec .inp ∧
    unitRunning doneDec (spaceOwner .inp) = false ∧ spaceSize doneDec .inp ≤ 65536 := by
  refine ⟨?_, by decide, by decide, by decide, by decide, by decide⟩
  simp [byteShows, doneDec]
/-- R45, R49, U4: the host reads no byte of a RUNNING unit's input space. -/
theorem test_read_src_running : step (hostMoves (.readMem .src 2) runningDec) = .refused (.ownedWhileRunning .dec) := rfl
theorem witness_StepRunsDecodedToken :
    decReady runningDec ∧ decode (fetchWindow runningDec) = .ok (.fillS 1 0x07#8) [0xFF#8] :=
  ⟨⟨rfl, rfl⟩, by decide⟩
theorem witness_StepRunsEncodedToken :
    decReady runningDec ∧ Instr.wf (.fillS 1 0x07#8) = true ∧
    streamAt runningDec runningDec.dec.sc (encode (.fillS 1 0x07#8)) := by
  refine ⟨⟨rfl, rfl⟩, by decide, fun k hk => ?_⟩
  have hk : k < 2 := hk
  interval_cases k <;> decide
theorem witness_StepFailsAtTheEndOfSrc_header :
    decReady (decAt [] []) ∧ (decAt [] []).srcSize ≤ (decAt [] []).dec.sc ∧
    decReady (decAt [] [0xFC#8]) ∧ (decAt [] [0xFC#8]).dec.sc + 1 = (decAt [] [0xFC#8]).srcSize ∧
    fetch (decAt [] [0xFC#8]) 0 = some 0xFC#8 ∧ (0xFC#8 : Byte).extractLsb 7 5 = 7#3 :=
  ⟨⟨rfl, rfl⟩, by decide, ⟨rfl, rfl⟩, by decide, by decide, by decide⟩
theorem witness_StepFailsAtTheEndOfSrc_payload :
    decReady (decAt [] [0x23#8]) ∧ Instr.lengths (.fillS 4 0x05#8) = some (4, 4) ∧
    (encode (.fillS 4 0x05#8)).head?.map isShort = some true ∧ (encode (.fillS 4 0x05#8)).length = 2 ∧
    (decAt [] [0x23#8]).dec.sc + 1 = (decAt [] [0x23#8]).srcSize ∧
    streamAt (decAt [] [0x23#8]) 0 ((encode (.fillS 4 0x05#8)).take 1) := by
  refine ⟨⟨rfl, rfl⟩, by decide, by decide, by decide, by decide, fun k hk => ?_⟩
  have hk : k < 1 := hk
  interval_cases k
  decide
theorem witness_IdleBlockDoesNothing : State.reset.agenda = [] ∧ State.reset.dec.status ≠ .running ∧
    State.reset.enc.status ≠ .running := by decide

/-- DEC with three bytes produced, all listed. -/
def threeOut : State := decAt [0x41#8, 0x42#8, 0x43#8] []

theorem witness_LiteralCopiesPayload :
    isLiteral (.literalL 2 [0x01#8, 0xFF#8]) 2 [0x01#8, 0xFF#8] ∧ Instr.wf (.literalL 2 [0x01#8, 0xFF#8]) = true ∧
    (decFull 65534 []).dec.oc + 2 ≤ 65536 := ⟨.inr rfl, by decide, by decide⟩
theorem witness_FillRepeatsByte : isFill (.fillS 32 0x05#8) 32 0x05#8 ∧ (decFull 65504 []).dec.oc + 32 ≤ 65536 :=
  ⟨.inl rfl, by decide⟩
theorem witness_WordFillRepeatsPair : isWordFill (.wordFillL 512 0x12#8 0x34#8) 512 0x12#8 0x34#8 ∧
    (decFull 64512 []).dec.oc + 2 * 512 ≤ 65536 := ⟨.inr rfl, by decide⟩
theorem witness_SequenceCountsUp : isSequence (.sequenceL 300 0x80#8) 300 0x80#8 ∧ threeOut.dec.oc + 300 ≤ 65536 :=
  ⟨.inr rfl, by decide⟩
theorem witness_CopyForwardCopies : isCopyForward (.copyForwardS 5 65531#16) 5 65531#16 ∧ threeOut.dec.oc + 5 ≤ 65536 ∧
    (65531#16).toNat + 5 ≤ 65536 := ⟨.inl rfl, by decide, by decide⟩
theorem witness_CopyBitReversedCopies : isCopyBitReversed (.copyBitReversedL 5 0#16) 5 0#16 ∧
    threeOut.dec.oc + 5 ≤ 65536 ∧ (0#16).toNat + 5 ≤ 65536 := ⟨.inr rfl, by decide, by decide⟩
theorem witness_CopyBackwardCopies : isCopyBackward (.copyBackwardS 3 2#16) 3 2#16 ∧ threeOut.dec.oc + 3 ≤ 65536 ∧
    3 ≤ (2#16).toNat + 1 := ⟨.inl rfl, by decide, by decide⟩
theorem witness_outWritten : outWritten threeOut := by
  intro a ha
  have ha : a < 3 := ha
  interval_cases a <;> decide
theorem witness_OverlappingForwardCopyIsPeriodic : isCopyForward (.copyForwardS 5 0#16) 5 0#16 ∧ outWritten threeOut ∧
    threeOut.dec.oc + 5 ≤ 65536 ∧ (0#16).toNat + 3 = threeOut.dec.oc ∧ 0 < 3 ∧ (0#16).toNat + 5 ≤ 65536 :=
  ⟨.inl rfl, witness_outWritten, by decide, by decide, by decide, by decide⟩
theorem witness_OverlappingReversedCopyAlternates : isCopyBitReversed (.copyBitReversedS 4 2#16) 4 2#16 ∧
    outWritten threeOut ∧ threeOut.dec.oc + 4 ≤ 65536 ∧ (2#16).toNat + 1 = threeOut.dec.oc ∧ 0 < 1 ∧
    (2#16).toNat + 4 ≤ 65536 :=
  ⟨.inl rfl, witness_outWritten, by decide, by decide, by decide, by decide⟩
theorem witness_BackwardCopyReversesOrder : isCopyBackward (.copyBackwardL 3 2#16) 3 2#16 ∧ outWritten threeOut ∧
    threeOut.dec.oc + 3 ≤ 65536 ∧ (2#16).toNat < threeOut.dec.oc ∧ 3 ≤ (2#16).toNat + 1 :=
  ⟨.inr rfl, witness_outWritten, by decide, by decide, by decide⟩
theorem witness_UnwrittenCopyDrawsFreshBytes : isCopyForward (.copyForwardS 3 3#16) 3 3#16 ∧
    isCopyBitReversed (.copyBitReversedS 3 3#16) 3 3#16 ∧ threeOut.dec.oc + 3 ≤ 65536 ∧ (3#16).toNat + 3 ≤ 65536 ∧
    threeOut.dec.oc ≤ (3#16).toNat := ⟨.inl rfl, .inl rfl, by decide, by decide, by decide⟩
/-- V21's CopyBackward: at `j = 0` the read is outside the written part, at `j = 1` it is not. -/
theorem witness_UnwrittenCopyDrawsFreshBytes_backward : isCopyBackward (.copyBackwardS 3 3#16) 3 3#16 ∧
    (decAt [0x11#8, 0x22#8] []).dec.oc + 3 ≤ 65536 ∧ 3 ≤ (3#16).toNat + 1 ∧
    (decAt [0x11#8, 0x22#8] []).dec.oc ≤ (3#16).toNat ∧ outWritten (decAt [0x11#8, 0x22#8] []) ∧
    (decAt [0x11#8, 0x22#8] []).dec.oc + 2 * 0 ≤ (3#16).toNat ∧
    ¬ (decAt [0x11#8, 0x22#8] []).dec.oc + 2 * 1 ≤ (3#16).toNat := by
  refine ⟨.inl rfl, by decide, by decide, by decide, fun a ha => ?_, by decide, by decide⟩
  have ha : a < 2 := ha
  interval_cases a <;> decide
theorem witness_CapacityChecked :
    Instr.lengths (.copyBackwardS 1 0#16) = some (1, 1) ∧ 65536 < (decFull 65536 []).dec.oc + 1 ∧
    isWordFill (.wordFillL 513 0x12#8 0x34#8) 513 0x12#8 0x34#8 ∧ 65536 < (decFull 64512 []).dec.oc + 2 * 513 :=
  ⟨by decide, by decide, .inr rfl, by decide⟩
theorem witness_CopyRangesChecked :
    threeOut.dec.oc + 5 ≤ 65536 ∧ isCopyForward (.copyForwardS 5 65532#16) 5 65532#16 ∧ 65536 < (65532#16).toNat + 5 ∧
    isCopyBackward (.copyBackwardS 5 3#16) 5 3#16 ∧ ((3#16).toNat : Int) - (5 : Nat) + 1 < 0 :=
  ⟨by decide, .inl rfl, by decide, .inl rfl, by decide⟩
theorem witness_ReservedTokensFail : isReserved (.reserved7FD 0x12#8) 0x12#8 := .inr (.inl rfl)
theorem witness_EveryTokenIsAtomic : Instr.wf (.literalS 1 [0x00#8]) = true ∧ Instr.wf (.reserved7FC 0x00#8) = true ∧
    Instr.wf .terminator = true := by decide
theorem witness_DecoderTerminates : runningDec.agenda = [] ∧ runningDec.dec.status = .running := by decide
theorem witness_LeftoverOutIsNeverSeen : ∀ a, a < runningDec.dec.oc →
    Memory.read? (Memory.write runningDec.out 9 0x77#8) a = Memory.read? runningDec.out a := by
  intro a ha
  have ha : a < 1 := ha
  interval_cases a
  decide
theorem witness_StepKeepsBlockInv : BlockInv State.reset ∧ ∃ t, step State.reset = .next t :=
  ⟨⟨⟨rfl, rfl, rfl, rfl, rfl, rfl, rfl⟩, ⟨by decide, by decide, by decide, fun a h => absurd h (Nat.not_lt_zero a),
    by decide, by decide⟩⟩, _, rfl⟩
theorem witness_StepKeepsEncInv : EncInv (encAt [0x07#8, 0x07#8, 0x07#8] [0x22#8, 0x07#8] 3) ∧
    ∃ t, step (encAt [0x07#8, 0x07#8, 0x07#8] [0x22#8, 0x07#8] 3) = .next t :=
  ⟨⟨fun _ => by decide, fun _ => by decide, fun _ => by decide, by decide, by decide, by decide⟩, _, rfl⟩
/-- `pos3 < pos2`, the hypothesis of the copy matchers' statement. -/
theorem witness_CopyMatchersMeasureLongest : 4 < 5 := by decide
theorem witness_SelectorTakesFirstFit :
    3 ≤ byteRun (inputOf [0x07#8, 0x07#8, 0x07#8]) 3 0 ∧
    byteRun (inputOf [0x01#8, 0x05#8, 0x01#8, 0x05#8, 0x01#8, 0x05#8]) 6 0 < 3 ∧
    3 ≤ wordRun (inputOf [0x01#8, 0x05#8, 0x01#8, 0x05#8, 0x01#8, 0x05#8]) 6 0 ∧
    4 ≤ arithRun (inputOf [0x10#8, 0x11#8, 0x12#8, 0x13#8]) 4 0 ∧
    byteRun (inputOf [0x10#8, 0x11#8, 0x12#8, 0x13#8]) 4 0 < 3 ∧ wordRun (inputOf [0x10#8, 0x11#8, 0x12#8, 0x13#8]) 4 0 < 3 ∧
    select (inputOf [0x10#8, 0x11#8, 0x12#8, 0x20#8]) 4 3 = none := by decide
theorem witness_ScanFindsEarliestMatch : 0 ≤ 4 ∧
    (scan (inputOf [0x09#8, 0x07#8, 0x07#8, 0x07#8]) 4 1024 0).1 = 1 ∧
    (scan (inputOf [0x09#8, 0x07#8, 0x07#8, 0x08#8]) 4 1024 0) = (4, none) := by decide
theorem witness_SelectedTokenIsEncoded : 0 < 3 ∧ 3 ≤ 65536 ∧
    select (inputOf [0x07#8, 0x07#8, 0x07#8]) 3 0 = some (.fill 0x07#8 3) := by decide
theorem witness_PendingLiteralIsEncoded : literalBytes (inputOf [0x09#8, 0x07#8]) 0 (0 + 0) = [] ∧
    literalBytes (inputOf [0x09#8, 0x07#8]) 0 (0 + 2) = [0x01#8, 0x09#8, 0x07#8] := by decide
theorem witness_EncIterationEffect : encReady (encAt [0x07#8, 0x07#8, 0x07#8] [] 0) ∧
    (encAt [0x07#8, 0x07#8, 0x07#8] [] 0).enc.pos < inLength (encAt [0x07#8, 0x07#8, 0x07#8] [] 0) :=
  ⟨⟨rfl, rfl⟩, by decide⟩
theorem witness_EncTerminatorEffect : encReady (encAt [0x07#8] [] 1) ∧
    inLength (encAt [0x07#8] [] 1) ≤ (encAt [0x07#8] [] 1).enc.pos := ⟨⟨rfl, rfl⟩, by decide⟩
theorem witness_EncoderRunsCompress : (encAt [0x07#8] [] 0).agenda = [] ∧ (encAt [0x07#8] [] 0).dec.status ≠ .running ∧
    (encAt [0x07#8] [] 0).enc.status = .running ∧ (encAt [0x07#8] [] 0).enc.pos = 0 ∧
    (encAt [0x07#8] [] 0).enc.wp = 0 := by decide
theorem witness_CompressReadsOnlyTheInput : ∀ i, i < 1 → inputOf [0x42#8] i = inputOf [0x42#8, 0x43#8] i := by
  intro i hi
  interval_cases i
  decide
theorem witness_CompressedSizeBound : (1 ≤ 65536 ∧ 65536 ≤ 65536) ∧ (streamOf [0x42#8]).length = 3 := by decide
theorem witness_RoundTrip : (decAt [] (streamOf [0x42#8])).agenda = [] ∧
    (decAt [] (streamOf [0x42#8])).dec.status = .running ∧ (decAt [] (streamOf [0x42#8])).dec.oc = 0 ∧
    streamAt (decAt [] (streamOf [0x42#8])) 0 (compress (inputOf [0x42#8]) 1) := by
  refine ⟨by decide, by decide, by decide, fun k hk => ?_⟩
  have hk : k < 3 := hk
  interval_cases k <;> decide

end Sys2Proof.Tests
end

section
/-! PROOFS. The host's moves: reset, START, the registers and the buffers (R29 to R37, R210, R211). -/

namespace Sys2Proof.Machine

/-! ### The host's move -/

/-- With a host move first on the agenda, the step is that move, at the state without it. -/
theorem step_of_host {s : State} {c : HostCmd} {rest : List Event} (h : s.agenda = .host c :: rest) :
    step s = hostStep c { s with agenda := rest } := by
  simp [step, nextEvent, popAgenda, h]

@[simp] theorem unitRunning_enc (s : State) : unitRunning s .enc = true ↔ s.enc.status = .running := by
  simp [unitRunning]

@[simp] theorem unitRunning_dec (s : State) : unitRunning s .dec = true ↔ s.dec.status = .running := by
  simp [unitRunning]

/-- U3: START of a RUNNING unit is refused. -/
theorem hostWriteReg_start_running {s : State} {u : UnitId} {v : Nat} (hv : v % 2 = 1)
    (hr : unitRunning s u = true) : hostWriteReg u 0 v s = .refused (.startWhileRunning u) := by
  cases u <;> simp [hostWriteReg, hv, hr]

/-- U4: the parameter register of a RUNNING unit is not the host's to write. -/
theorem hostWriteReg_param_running {s : State} {u : UnitId} (v : Nat) (hr : unitRunning s u = true) :
    hostWriteReg u 3 v s = .refused (.ownedWhileRunning u) := by
  cases u <;> simp [hostWriteReg, hr]

/-- R30: START of ENC. -/
theorem hostWriteReg_start_enc {s : State} {v : Nat} (hv : v % 2 = 1) (hr : s.enc.status ≠ .running) :
    hostWriteReg .enc 0 v s = .next (startEnc s) := by
  simp [hostWriteReg, hv, hr]

/-- R33: START of DEC. -/
theorem hostWriteReg_start_dec {s : State} {v : Nat} (hv : v % 2 = 1) (hr : s.dec.status ≠ .running) :
    hostWriteReg .dec 0 v s = .next (startDec s) := by
  simp [hostWriteReg, hv, hr]

/-- R31: a write of `ENC_IN_LEN`. -/
theorem hostWriteReg_inLen {s : State} (v : Nat) (hr : s.enc.status ≠ .running) :
    hostWriteReg .enc 3 v s = .next (setInLen v s) := by
  simp [hostWriteReg, hr]

/-- R34: a write of `DEC_SRC_OFF`. -/
theorem hostWriteReg_srcOff {s : State} (v : Nat) (hr : s.dec.status ≠ .running) :
    hostWriteReg .dec 3 v s = .next (setSrcOff v s) := by
  simp [hostWriteReg, hr]

/-- R29: every number but 0 and 3, and CTRL with bit 0 clear, ignores the write. -/
theorem hostWriteReg_ignored {no v : Nat} (h : no = 1 ∨ no = 2 ∨ 4 ≤ no ∨ (no = 0 ∧ v % 2 = 0)) (u : UnitId)
    (s : State) : hostWriteReg u no v s = .next s := by
  unfold hostWriteReg
  split
  case h_1 => exact if_pos (by omega)
  case h_2 => exact if_pos (by omega)
  case h_3 => omega
  case h_4 => omega
  case h_5 => rfl

/-! ### Buffer accesses -/

theorem hostAccess_outside {s : State} {sp : Space} {a : Nat} (h : spaceSize s sp ≤ a) (act : Result) :
    hostAccess sp a s act = .fault (.noSuchIndex sp a) := if_pos h

theorem hostAccess_running {s : State} {sp : Space} {a : Nat} (h : a < spaceSize s sp)
    (hr : unitRunning s (spaceOwner sp) = true) (act : Result) :
    hostAccess sp a s act = .refused (.ownedWhileRunning (spaceOwner sp)) := by
  rw [hostAccess, if_neg (Nat.not_le.2 h), if_pos hr]

theorem hostAccess_quiet {s : State} {sp : Space} {a : Nat} (h : a < spaceSize s sp)
    (hr : unitRunning s (spaceOwner sp) = false) (act : Result) : hostAccess sp a s act = act := by
  rw [hostAccess, if_neg (Nat.not_le.2 h), hr]
  rfl

/-- Storing a byte touches nothing but the spaces. -/
theorem putMem_frame (sp : Space) (a : Nat) (b : Byte) (s : State) :
    putMem sp a b s = { s with src := (putMem sp a b s).src, out := (putMem sp a b s).out,
                               inp := (putMem sp a b s).inp, cs := (putMem sp a b s).cs } := by
  cases sp <;> rfl

/-- The space a byte is stored in is written; the three others stay. -/
theorem spaceOf_putMem (sp : Space) (a : Nat) (b : Byte) (s : State) (sp' : Space) :
    spaceOf (putMem sp a b s) sp' = if sp' = sp then Memory.write (spaceOf s sp) a b else spaceOf s sp' := by
  cases sp <;> cases sp' <;> rfl

/-- Reading after storing a byte: that byte at its place, the old contents everywhere else. -/
theorem read_putMem (sp : Space) (a : Nat) (b : Byte) (s : State) (sp' : Space) (x : Nat) :
    Memory.read? (spaceOf (putMem sp a b s) sp') x =
      if sp' = sp ∧ x = a then some b else Memory.read? (spaceOf s sp') x := by
  rw [spaceOf_putMem]
  by_cases h : sp' = sp
  · subst h
    simp [Memory.read_write]
  · simp [h]

/-! ### All that a move of the host can do -/

/-- The next states that a move of the host can lead to. -/
inductive HostMove (s : State) : State → Prop
  | ignored : HostMove s s
  | startEnc (hr : s.enc.status ≠ .running) : HostMove s (startEnc s)
  | setInLen (v : Nat) (hr : s.enc.status ≠ .running) : HostMove s (setInLen v s)
  | startDec (hr : s.dec.status ≠ .running) : HostMove s (startDec s)
  | setSrcOff (v : Nat) (hr : s.dec.status ≠ .running) : HostMove s (setSrcOff v s)
  | returned (v : View) : HostMove s (returnView v s)
  | stored {sp : Space} {a : Nat} (b : Byte) (hin : a < spaceSize s sp) : HostMove s (putMem sp a b s)
  | reset : HostMove s (applyReset s)

theorem hostWriteReg_move {u : UnitId} {no v : Nat} {s t : State} (h : hostWriteReg u no v s = .next t) :
    HostMove s t := by
  by_cases hno : no = 1 ∨ no = 2 ∨ 4 ≤ no ∨ (no = 0 ∧ v % 2 = 0)
  · rw [hostWriteReg_ignored hno] at h
    cases h
    exact .ignored
  · have hparam : (no = 0 ∧ v % 2 = 1) ∨ no = 3 := by omega
    by_cases hr : unitRunning s u = true
    · rcases hparam with ⟨rfl, hv⟩ | rfl
      · rw [hostWriteReg_start_running hv hr] at h
        cases h
      · rw [hostWriteReg_param_running v hr] at h
        cases h
    · cases u with
      | enc =>
        rw [unitRunning_enc] at hr
        rcases hparam with ⟨rfl, hv⟩ | rfl
        · rw [hostWriteReg_start_enc hv hr] at h
          cases h
          exact .startEnc hr
        · rw [hostWriteReg_inLen v hr] at h
          cases h
          exact .setInLen v hr
      | dec =>
        rw [unitRunning_dec] at hr
        rcases hparam with ⟨rfl, hv⟩ | rfl
        · rw [hostWriteReg_start_dec hv hr] at h
          cases h
          exact .startDec hr
        · rw [hostWriteReg_srcOff v hr] at h
          cases h
          exact .setSrcOff v hr

/-- An access that answers a next state is inside the space, and is the access. -/
theorem hostAccess_next {sp : Space} {a : Nat} {s t : State} {act : Result} (h : hostAccess sp a s act = .next t) :
    a < spaceSize s sp ∧ act = .next t := by
  rcases hostAccess_cases sp a s act with ⟨-, he⟩ | ⟨-, -, he⟩ | ⟨hin, -, he⟩ <;> rw [he] at h
  · cases h
  · cases h
  · exact ⟨hin, h⟩

theorem hostStep_move {c : HostCmd} {s t : State} (h : hostStep c s = .next t) : HostMove s t := by
  cases c with
  | writeReg u no v => exact hostWriteReg_move h
  | readReg u no =>
    cases h
    exact .returned _
  | writeMem sp a b =>
    obtain ⟨hin, hact⟩ := hostAccess_next h
    cases hact
    exact .stored b hin
  | readMem sp a =>
    obtain ⟨-, hact⟩ := hostAccess_next h
    cases hact
    exact .returned _
  | reset =>
    cases h
    exact .reset

/-! ### Views -/

/-- A register with a defined value shows it. -/
theorem regView_of_shows {s : State} {u : UnitId} {no v : Nat} (h : registerShows s u no v) :
    regView s u no = .known v := by
  rcases h with ⟨rfl, rfl⟩ | ⟨rfl, rfl, rfl⟩ | ⟨rfl, rfl, hq, rfl⟩ | ⟨rfl, rfl, rfl⟩ | ⟨rfl, rfl, hq, rfl⟩ |
    ⟨rfl, rfl, rfl⟩ | ⟨rfl, rfl, hq, rfl⟩ | ⟨rfl, rfl, rfl⟩ | ⟨rfl, rfl, hq, hf, rfl⟩ | ⟨hno, rfl⟩
  · cases u <;> rfl
  · rfl
  · exact if_neg hq
  · rfl
  · exact if_neg hq
  · rfl
  · exact if_neg hq
  · rfl
  · exact (if_neg hf).trans (if_neg hq)
  · obtain ⟨k, rfl⟩ := Nat.exists_eq_add_of_le' (Nat.succ_le_of_lt hno)
    cases u <;> rfl

/-- A register without a defined value shows a free one of its width. -/
theorem regView_of_open {s : State} {u : UnitId} {no w : Nat} (h : registerOpen s u no w) :
    regView s u no = .unspecified w := by
  rcases h with ⟨rfl, rfl, hr, rfl⟩ | ⟨rfl, rfl, hr, rfl⟩ | ⟨rfl, rfl, hr, rfl⟩ | ⟨rfl, rfl, hr | hf, rfl⟩
  · exact if_pos hr
  · exact if_pos hr
  · exact if_pos hr
  · simp [regView, quietView, hr]
  · exact if_pos hf

/-- Every register number either shows a value or is open. -/
theorem registerShows_or_open (s : State) (u : UnitId) (no : Nat) :
    (∃ v, registerShows s u no v) ∨ ∃ w, registerOpen s u no w := by
  rcases Nat.lt_or_ge 4 no with hbig | hle
  · exact .inl ⟨0, by simp [registerShows, hbig]⟩
  · cases u with
    | enc =>
      by_cases hr : s.enc.status = .running
      · interval_cases no <;> simp [registerShows, registerOpen, hr]
      · interval_cases no <;> simp [registerShows, hr]
    | dec =>
      by_cases hr : s.dec.status = .running
      · interval_cases no <;> simp [registerShows, registerOpen, hr]
      · by_cases hf : s.dec.status = .failed
        · interval_cases no <;> simp [registerShows, registerOpen, hf]
        · interval_cases no <;> simp [registerShows, hr, hf]

/-- A defined byte is shown as it is stored. -/
theorem memView_of_byteShows {s : State} {sp : Space} {a : Nat} {b : Byte}
    (hb : Memory.read? (spaceOf s sp) a = some b) (h : byteShows s sp a) : memView s sp a = .known b.toNat := by
  rcases h with rfl | rfl | ⟨rfl, hd, ha⟩ | ⟨rfl, hd, ha⟩ <;> rw [spaceOf] at hb
  · simp [memView, srcByte, hb]
  · simp [memView, inByte, hb]
  · simp [memView, resultView, hb, hd, ha]
  · simp [memView, resultView, hb, hd, ha]

/-- A result byte is shown as a byte, or is open. -/
theorem resultView_cases (st : UnitStatus) (m : Memory) (length a : Nat) :
    (∃ b : Byte, resultView st m length a = .known b.toNat) ∨ resultView st m length a = .unspecified 8 := by
  unfold resultView
  split
  · cases Memory.read? m a with
    | some b => exact .inl ⟨b, rfl⟩
    | none => exact .inr rfl
  · exact .inr rfl

/-- Whatever its place, a byte is shown as a byte, or is open. -/
theorem memView_cases (s : State) (sp : Space) (a : Nat) :
    (∃ b : Byte, memView s sp a = .known b.toNat) ∨ memView s sp a = .unspecified 8 := by
  cases sp with
  | src => exact .inl ⟨srcByte s a, rfl⟩
  | inp => exact .inl ⟨inByte s a, rfl⟩
  | out => exact resultView_cases _ _ _ _
  | cs => exact resultView_cases _ _ _ _

/-! ### The statements about reset and the host -/

/-- Settles O11: the reset move is `applyReset`; the reset values are those of `State.reset`. -/
theorem resetRegisters : Obligations.ResetRegisters :=
  ⟨fun _ _ h => ⟨_, step_of_host h, rfl, rfl, rfl⟩, rfl, rfl, rfl, rfl, rfl, rfl, rfl, rfl, rfl, rfl⟩

/-- Settles O12: the step is `startEnc`, whose three outcomes are the statement's. -/
theorem encStartOutcomes : Obligations.EncStartOutcomes := by
  intro s v rest ha hv hr
  have hstep : step s = .next (startEnc { s with agenda := rest }) :=
    (step_of_host ha).trans (hostWriteReg_start_enc hv hr)
  rw [hstep]
  rcases startEnc_cases { s with agenda := rest } with ⟨h0, h⟩ | ⟨hbig, h⟩ | ⟨hpos, hle, h⟩
  · rw [h, if_pos h0]
    rfl
  · have hbig : 65536 < s.enc.inLen.toNat := hbig
    rw [h, if_neg (by omega), if_pos hbig]
    rfl
  · have hpos : 1 ≤ s.enc.inLen.toNat := hpos
    have hle : s.enc.inLen.toNat ≤ 65536 := hle
    rw [h, if_neg (by omega), if_neg (by omega)]
    rfl

/-- Settles O13: the step is `startDec`. -/
theorem decStartInitialises : Obligations.DecStartInitialises :=
  fun _ _ _ ha hv hr => (step_of_host ha).trans (hostWriteReg_start_dec hv hr)

/-- Settles O14: one refusal lemma for each of START, the parameter register, and the buffers. -/
theorem hostRefusedWhileRunning : Obligations.HostRefusedWhileRunning := by
  intro s u rest hr
  refine ⟨fun v hv ha => ?_, fun v ha => ?_, fun sp a b hsp hin ha => ?_, fun sp a hsp hin ha => ?_⟩
  · exact (step_of_host ha).trans (hostWriteReg_start_running hv hr)
  · exact (step_of_host ha).trans (hostWriteReg_param_running v hr)
  · subst hsp
    exact (step_of_host ha).trans (hostAccess_running (s := { s with agenda := rest }) hin hr _)
  · subst hsp
    exact (step_of_host ha).trans (hostAccess_running (s := { s with agenda := rest }) hin hr _)

/-- Settles O15: the read returns the register's view, which is known or open as the statement says. -/
theorem hostReadsRegisters : Obligations.HostReadsRegisters := by
  intro s u no rest ha
  have hstep : step s = .next (returnView (regView s u no) { s with agenda := rest }) := step_of_host ha
  refine ⟨fun v hv => ?_, fun w hw => ?_, registerShows_or_open s u no⟩
  · rw [hstep, regView_of_shows hv]
    rfl
  · rw [hstep, regView_of_open hw]
    exact ⟨_, Nat.mod_lt _ (Nat.two_pow_pos w), rfl⟩

/-- Settles O16. -/
theorem hostWritesRegisters : Obligations.HostWritesRegisters := by
  intro s v rest
  refine ⟨fun ha hr => ?_, fun ha hr => ?_, fun u no ha hno => ?_⟩
  · exact (step_of_host ha).trans (hostWriteReg_inLen v hr)
  · exact (step_of_host ha).trans (hostWriteReg_srcOff v hr)
  · exact (step_of_host ha).trans (hostWriteReg_ignored hno u _)

/-- Settles O17: inside the space the step is `putMem`. -/
theorem hostWritesBuffers : Obligations.HostWritesBuffers := by
  intro s sp a b rest ha
  refine ⟨fun hin hr => ?_, fun hout => ?_⟩
  · refine ⟨putMem sp a b { s with agenda := rest }, ?_, putMem_frame sp a b { s with agenda := rest },
      read_putMem sp a b { s with agenda := rest }⟩
    exact (step_of_host ha).trans (hostAccess_quiet (s := { s with agenda := rest }) hin hr _)
  · exact (step_of_host ha).trans (hostAccess_outside (s := { s with agenda := rest }) hout _)

/-- Settles O18: inside the space the step returns the byte's view. -/
theorem hostReadsBuffers : Obligations.HostReadsBuffers := by
  intro s sp a rest ha
  refine ⟨fun hin hr => ?_, fun hout => ?_⟩
  · have hstep : step s = .next (returnView (memView s sp a) { s with agenda := rest }) := by
      refine (step_of_host ha).trans ((hostAccess_quiet (s := { s with agenda := rest }) hin hr _).trans ?_)
      cases sp <;> rfl
    refine ⟨fun b hb hshow => ?_, fun _ => ?_⟩
    · rw [hstep, memView_of_byteShows hb hshow]
      rfl
    · rcases memView_cases s sp a with ⟨b, hv⟩ | hv <;> rw [hstep, hv]
      · exact ⟨_, 0, b.isLt, Nat.zero_le 1, rfl⟩
      · exact ⟨_, 1, Nat.mod_lt _ (by decide), Nat.le_refl 1, rfl⟩
  · exact (step_of_host ha).trans (hostAccess_outside (s := { s with agenda := rest }) hout _)

end Sys2Proof.Machine
end

section
/-! PROOFS. What a turn of DEC can do, from the bytes it fetches to the state it leaves (R142 to R161). -/

namespace Sys2Proof.Machine

/-! ### The bytes a decoded token takes -/

/-- R63: if the token is a Literal, its payload is as long as its length says. -/
def PayloadExact : Instr → Prop
  | .literalS len bytes => bytes.length = len
  | .literalL len bytes => bytes.length = len
  | _ => True

/-- A token and the bytes after it, taken from `total` bytes: nothing is left over and a Literal has all its payload. -/
structure TakenFrom (total : Nat) (i : Instr) (rest : List Byte) : Prop where
  size : i.size + rest.length = total
  payload : PayloadExact i

section
variable {hdr len : Nat} {bs rest : List Byte} {i : Instr}

theorem takeRun_taken {k : List Byte → Instr} (h : takeRun len bs k = .ok i rest)
    (hsize : ∀ run, (k run).size = hdr + len) (hexact : ∀ run, run.length = len → PayloadExact (k run)) :
    TakenFrom (hdr + bs.length) i rest := by
  unfold takeRun at h
  split at h
  · rename_i run r hsplit
    obtain ⟨rfl, rfl⟩ := DecodeResult.ok.inj h
    obtain ⟨rfl, hrun⟩ := splitExact_some hsplit
    exact ⟨by rw [hsize, List.length_append]; omega, hexact run hrun⟩
  · cases h

theorem takeByte_taken {k : Byte → Instr} (h : takeByte len bs k = .ok i rest)
    (hsize : ∀ v, (k v).size = hdr + 1) (hexact : ∀ v, PayloadExact (k v)) : TakenFrom (hdr + bs.length) i rest := by
  cases bs with
  | nil => cases h
  | cons v r =>
    obtain ⟨rfl, rfl⟩ := DecodeResult.ok.inj h
    exact ⟨by rw [hsize, List.length_cons]; omega, hexact v⟩

theorem takePair_taken {k : Byte → Byte → Instr} (h : takePair len bs k = .ok i rest)
    (hsize : ∀ v0 v1, (k v0 v1).size = hdr + 2) (hexact : ∀ v0 v1, PayloadExact (k v0 v1)) :
    TakenFrom (hdr + bs.length) i rest := by
  match bs, h with
  | v0 :: v1 :: r, h =>
    obtain ⟨rfl, rfl⟩ := DecodeResult.ok.inj h
    exact ⟨by rw [hsize, List.length_cons, List.length_cons]; omega, hexact v0 v1⟩

theorem takeAddr_taken {k : Addr → Instr} (h : takeAddr len bs k = .ok i rest)
    (hsize : ∀ a, (k a).size = hdr + 2) (hexact : ∀ a, PayloadExact (k a)) : TakenFrom (hdr + bs.length) i rest :=
  takePair_taken h (fun _ _ => hsize _) (fun _ _ => hexact _)

end

theorem decodeShort_taken {c : Cmd} {len : Nat} {bs rest : List Byte} {i : Instr}
    (h : decodeShort c len bs = .ok i rest) : TakenFrom (1 + bs.length) i rest := by
  cases c with
  | literal => exact takeRun_taken h (fun _ => rfl) (fun _ hrun => hrun)
  | fill | sequence => exact takeByte_taken h (fun _ => rfl) (fun _ => trivial)
  | wordFill => exact takePair_taken h (fun _ _ => rfl) (fun _ _ => trivial)
  | copyForward | copyBitReversed | copyBackward => exact takeAddr_taken h (fun _ => rfl) (fun _ => trivial)

theorem decodeLong_taken {c : Cmd} {len : Nat} {bs rest : List Byte} {i : Instr}
    (h : decodeLong c len bs = .ok i rest) : TakenFrom (2 + bs.length) i rest := by
  cases c with
  | literal => exact takeRun_taken h (fun _ => rfl) (fun _ hrun => hrun)
  | fill | sequence => exact takeByte_taken h (fun _ => rfl) (fun _ => trivial)
  | wordFill => exact takePair_taken h (fun _ _ => rfl) (fun _ _ => trivial)
  | copyForward | copyBitReversed | copyBackward => exact takeAddr_taken h (fun _ => rfl) (fun _ => trivial)

theorem decodeReserved_taken {b0 b1 : Byte} {bs rest : List Byte} {i : Instr}
    (h : decodeReserved b0 b1 bs = .ok i rest) : TakenFrom (2 + bs.length) i rest := by
  unfold decodeReserved at h
  split at h
  · obtain ⟨rfl, rfl⟩ := DecodeResult.ok.inj h
    exact ⟨rfl, trivial⟩
  · split at h <;> obtain ⟨rfl, rfl⟩ := DecodeResult.ok.inj h <;> exact ⟨rfl, trivial⟩

/-- A decoded token and the bytes after it are all the bytes there were. -/
theorem decode_taken {bs rest : List Byte} {i : Instr} (h : decode bs = .ok i rest) :
    TakenFrom bs.length i rest := by
  match bs, h with
  | b0 :: bs, h =>
    simp only [decode] at h
    rw [List.length_cons, Nat.add_comm]
    split at h
    · obtain ⟨rfl, rfl⟩ := DecodeResult.ok.inj h
      exact ⟨rfl, trivial⟩
    · split at h
      · split at h
        · exact decodeShort_taken h
        · cases h
      · split at h
        · cases h
        · rename_i b1 r
          rw [List.length_cons, Nat.add_comm, Nat.add_assoc, Nat.add_comm]
          split at h
          · exact decodeLong_taken h
          · exact decodeReserved_taken h

/-- The fetch stops at the end of SRC (R160). -/
theorem fetchRun_length_le (s : State) (k a : Nat) : (fetchRun s k a).length ≤ s.srcSize - a := by
  induction k generalizing a with
  | zero => exact Nat.zero_le _
  | succ k ih =>
    rw [fetchRun, fetch_eq]
    by_cases h : a < s.srcSize
    · rw [if_pos h]
      have := ih (a + 1)
      simp only [List.length_cons]
      omega
    · rw [if_neg h]
      exact Nat.zero_le _

/-- A token read from the window lies inside SRC. -/
theorem size_le_of_decode_window {s : State} {i : Instr} {rest : List Byte}
    (h : decode (fetchWindow s) = .ok i rest) : i.size ≤ s.srcSize - s.dec.sc := by
  have hlen : (fetchWindow s).length ≤ s.srcSize - s.dec.sc := fetchRun_length_le s _ _
  have hsize := (decode_taken h).size
  omega

/-! ### What a token can do -/

/-- OUT as a token that wrote `written` bytes at the cursor leaves it: room for them, the canonical form and the range
kept, every byte listed before and every byte of the written part listed. -/
structure OutGrows (s : State) (written : Nat) (out : Memory) : Prop where
  fits : s.dec.oc + written ≤ Config.outCap
  wf : Memory.wf s.out = true → Memory.wf out = true
  below : Memory.below s.out Config.outCap = true → Memory.below out Config.outCap = true
  listed : ∀ x, (Memory.read? s.out x).isSome = true ∨ (s.dec.oc ≤ x ∧ x < s.dec.oc + written) →
    (Memory.read? out x).isSome = true

/-- R161: all the results a token of `size` stream bytes can have: a failure, the end, or a normal end of the token. -/
inductive TokenResult (size : Nat) (s : State) : Result → Prop
  | failed {c : DecErr} (hc : c ≠ .none) : TokenResult size s (.next (raiseDec c s))
  | finished : TokenResult size s (.next (finishDec s))
  | done {written : Nat} {out : Memory} {draws : Nat} (hout : OutGrows s written out) :
      TokenResult size s (.next (commit size written out draws s))

theorem TokenResult.withRoom {size bytes : Nat} {s : State} {act : Result}
    (h : s.dec.oc + bytes ≤ Config.outCap → TokenResult size s act) :
    TokenResult size s (Machine.withRoom bytes s act) := by
  rcases withRoom_cases bytes s act with ⟨hfit, he⟩ | ⟨-, he⟩ <;> rw [he]
  · exact h hfit
  · exact .failed nofun

theorem TokenResult.putRun {bs : List Byte} {s : State} (h : s.dec.oc + bs.length ≤ Config.outCap) (size : Nat) :
    TokenResult size s (.next (putRun size bs s)) :=
  .done ⟨h, fun hw => Memory.wf_writeRun hw _ _, fun hb => Memory.below_writeRun hb _ h,
    fun _ hx => Memory.isSome_writeRun hx⟩

/-- A copy lists every byte of its destination, and no byte is lost. -/
theorem copyLoop_listed (idx : Nat → Nat) (f : Byte → Byte) (oc n : Nat) (out : Memory) (draws : Nat) {x : Nat}
    (h : (Memory.read? out x).isSome = true ∨ (oc ≤ x ∧ x < oc + n)) :
    (Memory.read? (copyLoop idx f oc n 0 out draws).1 x).isSome = true := by
  obtain ⟨hframe, -, -, hval⟩ := copyLoop_spec idx f oc n 0 out draws
  by_cases hx : oc ≤ x ∧ x < oc + n
  · obtain ⟨j, rfl⟩ := Nat.exists_eq_add_of_le hx.1
    rcases hval j (Nat.zero_le _) (by omega) with ⟨c, -, -, hc⟩ | ⟨d, -, -, -, hd⟩
    · rw [hc]
      rfl
    · rw [hd]
      rfl
  · rw [hframe x hx]
    exact h.resolve_right hx

theorem TokenResult.putCopy {len : Nat} {s : State} (h : s.dec.oc + len ≤ Config.outCap) (size : Nat)
    (idx : Nat → Nat) (f : Byte → Byte) : TokenResult size s (.next (putCopy size len idx f s)) :=
  .done ⟨h, copyLoop_wf idx f _ _ _ _, fun hb => copyLoop_below idx f _ _ _ _ hb h,
    fun _ hx => copyLoop_listed idx f _ _ _ _ hx⟩

theorem literalBody_result {h len : Nat} {bytes : List Byte} (hlen : bytes.length = len) (s : State) :
    TokenResult (h + len) s (literalBody h len bytes s) :=
  .withRoom fun hfit => .putRun (by rwa [hlen]) _

theorem fillBody_result (h len : Nat) (v : Byte) (s : State) : TokenResult (h + 1) s (fillBody h len v s) :=
  .withRoom fun hfit => .putRun (by rwa [fillBytes_length]) _

theorem wordFillBody_result (h len : Nat) (v0 v1 : Byte) (s : State) :
    TokenResult (h + 2) s (wordFillBody h len v0 v1 s) :=
  .withRoom fun _ => .withRoom fun hfit => .putRun (by rwa [wordFillBytes_length]) _

theorem sequenceBody_result (h len : Nat) (v : Byte) (s : State) :
    TokenResult (h + 1) s (sequenceBody h len v s) :=
  .withRoom fun hfit => .putRun (by rwa [sequenceBytes_length]) _

theorem forwardBody_result (h len : Nat) (addr : Addr) (f : Byte → Byte) (s : State) :
    TokenResult (h + 2) s (forwardBody h len addr f s) := by
  refine .withRoom fun hfit => ?_
  rw [withAddr_eq]
  split
  · exact .failed nofun
  · exact .putCopy hfit _ _ _

theorem backwardBody_result (h len : Nat) (addr : Addr) (s : State) :
    TokenResult (h + 2) s (backwardBody h len addr s) := by
  refine .withRoom fun hfit => ?_
  rw [withAddr_eq]
  split
  · exact .failed nofun
  · exact .putCopy hfit _ _ _

/-- R147, R161: every token has one of the results. -/
theorem exec_result {i : Instr} (hi : PayloadExact i) (s : State) : TokenResult i.size s (exec i s) := by
  cases i with
  | literalS len bytes => exact literalBody_result hi s
  | literalL len bytes => exact literalBody_result hi s
  | fillS len v => exact fillBody_result 1 len v s
  | fillL len v => exact fillBody_result 2 len v s
  | wordFillS len v0 v1 => exact wordFillBody_result 1 len v0 v1 s
  | wordFillL len v0 v1 => exact wordFillBody_result 2 len v0 v1 s
  | sequenceS len v => exact sequenceBody_result 1 len v s
  | sequenceL len v => exact sequenceBody_result 2 len v s
  | copyForwardS len addr => exact forwardBody_result 1 len addr id s
  | copyForwardL len addr => exact forwardBody_result 2 len addr id s
  | copyBitReversedS len addr => exact forwardBody_result 1 len addr bitrev s
  | copyBitReversedL len addr => exact forwardBody_result 2 len addr bitrev s
  | copyBackwardS len addr => exact backwardBody_result 1 len addr s
  | copyBackwardL len addr => exact backwardBody_result 2 len addr s
  | reserved7FC b1 | reserved7FD b1 | reserved7FE b1 => exact .failed nofun
  | terminator => exact .finished

/-- R142, R186: a token step has one of the results, and its token lies inside SRC. -/
theorem decStep_result (s : State) : ∃ size, size ≤ s.srcSize - s.dec.sc ∧ TokenResult size s (decStep s) := by
  unfold decStep
  cases h : decode (fetchWindow s) with
  | ok i rest => exact ⟨i.size, size_le_of_decode_window h, exec_result (decode_taken h).payload s⟩
  | headerCut => exact ⟨0, Nat.zero_le _, .failed nofun⟩
  | payloadCut len => exact ⟨0, Nat.zero_le _, .withRoom fun _ => .failed nofun⟩

/-- All a turn of DEC can do. -/
theorem decTurn_cases (s : State) :
    (s.dec.status ≠ .running ∧ decTurn s = .next s) ∨
      (s.dec.status = .running ∧ ∃ size, size ≤ s.srcSize - s.dec.sc ∧ TokenResult size s (decTurn s)) := by
  by_cases hr : s.dec.status = .running
  · rw [decTurn, if_pos hr]
    exact .inr ⟨hr, decStep_result s⟩
  · exact .inl ⟨hr, if_neg hr⟩

/-- The state with other values of what DEC may write: its registers, OUT and the free-value counter. -/
def withDec (d : Dec) (out : Memory) (draws : Nat) (s : State) : State :=
  { s with dec := d, out := out, draws := draws }

/-- R10, R44: a turn of DEC answers a next state, and touches only its registers, OUT and the free-value counter. -/
theorem decTurn_next (s : State) : ∃ d out draws, decTurn s = .next (withDec d out draws s) := by
  rcases decTurn_cases s with ⟨-, h⟩ | ⟨-, size, -, h⟩
  · exact ⟨_, _, _, h⟩
  · generalize decTurn s = r at h
    cases h <;> exact ⟨_, _, _, rfl⟩

end Sys2Proof.Machine
end

section
/-! PROOFS. What a turn of ENC can do, and how much one iteration of ENC adds to the stream (R102 to R129, R133). -/

namespace Sys2Proof.Machine

/-! ### The turn -/

/-- R102, R114: an iteration appends its bytes to CS and moves the two cursors; nothing else changes. -/
theorem encIteration_eq (s : State) :
    encIteration s = { s with
      cs := (emitAll (iteration (inByte s) (inLength s) s.enc.pos).2 s).cs
      enc := { s.enc with
        pos := (iteration (inByte s) (inLength s) s.enc.pos).1
        wp := s.enc.wp + (iteration (inByte s) (inLength s) s.enc.pos).2.length } } := by
  rw [encIteration, (emitAll_spec _ s).1]

/-- All a turn of ENC can do. -/
theorem encTurn_cases (s : State) :
    (s.enc.status ≠ .running ∧ encTurn s = .next s) ∨
      (s.enc.status = .running ∧ s.enc.pos < inLength s ∧ encTurn s = .next (encIteration s)) ∨
      (s.enc.status = .running ∧ inLength s ≤ s.enc.pos ∧ encTurn s = .next (encFinish s)) := by
  by_cases hr : s.enc.status = .running
  · rw [encTurn, if_pos hr, encStep]
    rcases Nat.lt_or_ge s.enc.pos (inLength s) with hlt | hge
    · exact .inr (.inl ⟨hr, hlt, if_pos hlt⟩)
    · exact .inr (.inr ⟨hr, hge, if_neg (Nat.not_lt.2 hge)⟩)
  · exact .inl ⟨hr, if_neg hr⟩

/-- The state with other values of what ENC may write: its registers and CS. -/
def withEnc (e : Enc) (cs : Memory) (s : State) : State := { s with enc := e, cs := cs }

/-- R10: a turn of ENC answers a next state, and touches only its registers and CS. -/
theorem encTurn_next (s : State) : ∃ e cs, encTurn s = .next (withEnc e cs s) := by
  rcases encTurn_cases s with ⟨-, h⟩ | ⟨-, -, h⟩ | ⟨-, -, h⟩
  · exact ⟨_, _, h⟩
  · exact ⟨_, _, by rw [h, encIteration_eq]; rfl⟩
  · exact ⟨_, _, h⟩

/-- Emitting inside a range keeps CS inside it. -/
theorem emitAll_below (bs : List Byte) {s : State} {n : Nat} (h : Memory.below s.cs n = true)
    (hn : s.enc.wp + bs.length ≤ n) : Memory.below (emitAll bs s).cs n = true := by
  induction bs generalizing s with
  | nil => exact h
  | cons b bs ih =>
    rw [List.length_cons] at hn
    exact ih (s := emit b s) (Memory.below_write h (by omega) b) (by rw [emit_enc_wp]; omega)

/-! ### The length of what is emitted -/

theorem hdrEncode_length (c : Cmd) (len : Nat) : (hdrEncode c len).length = if len ≤ 32 then 1 else 2 := by
  unfold hdrEncode Config.shortMax
  split <;> rfl

theorem inputRun_length (g : Nat → Byte) (k a : Nat) : (inputRun g k a).length = k := by
  induction k generalizing a with
  | zero => rfl
  | succ k ih => rw [inputRun, List.length_cons, ih]

/-- R115, R117: a literal costs its bytes and a header. -/
theorem literalBytes_length_le (g : Nat → Byte) (pos pos2 : Nat) :
    (literalBytes g pos pos2).length ≤ (pos2 - pos) + if pos2 - pos ≤ 32 then 1 else 2 := by
  unfold literalBytes
  split
  · rw [List.length_append, hdrEncode_length, inputRun_length, Nat.add_comm]
  · exact Nat.zero_le _

/-- A measured length that is not 0 passed the guard at its last index. -/
theorem countWhile_last {p : Nat → Bool} {q : Nat → Prop} {fuel : Nat} (hp : ∀ l, p l = true → q l)
    (h : 0 < countWhile p fuel 0) : q (countWhile p fuel 0 - 1) := by
  obtain ⟨-, -, hall, -⟩ := countWhile_spec p fuel 0
  exact hp _ (hall _ (Nat.zero_le _) (by omega))

section
variable {g : Nat → Byte} {n pos2 pos3 : Nat}

/-- A measuring loop that looks at one byte of the input a turn measures inside the input. -/
theorem countWhile_inside {p : Nat → Bool} {fuel : Nat} (hp : ∀ l, p l = true → pos2 + l < n)
    (h : 0 < countWhile p fuel 0) : pos2 + countWhile p fuel 0 ≤ n := by
  have hlast := countWhile_last hp h
  omega

theorem byteRun_inside (h : 0 < byteRun g n pos2) : pos2 + byteRun g n pos2 ≤ n :=
  countWhile_inside (fun l hl => by simp_all) h

theorem wordRun_inside (h : 0 < wordRun g n pos2) : pos2 + 2 * wordRun g n pos2 ≤ n := by
  unfold wordRun at h ⊢
  split at h
  · omega
  · rename_i hpair
    rw [if_neg hpair]
    have hlast := countWhile_last (q := fun r => pos2 + 2 * r + 1 < n) (fun r hr => by simp_all) h
    omega

theorem arithRun_inside (h : 0 < arithRun g n pos2) : pos2 + arithRun g n pos2 ≤ n :=
  countWhile_inside (fun l hl => by simp_all) h

theorem fwdMatch_inside (h : 0 < fwdMatch g n pos2 pos3) : pos2 + fwdMatch g n pos2 pos3 ≤ n :=
  countWhile_inside (fun l hl => by simp_all) h

theorem revMatch_inside (h : 0 < revMatch g n pos2 pos3) : pos2 + revMatch g n pos2 pos3 ≤ n :=
  countWhile_inside (fun l hl => by simp_all) h

theorem bwdMatch_inside (h : 0 < bwdMatch g n pos2 pos3) : pos2 + bwdMatch g n pos2 pos3 ≤ n :=
  countWhile_inside (fun l hl => by simp_all) h

/-- R124, R133: a match worth taking at `pos2`: it covers at least 3 bytes, all inside the
input, and its token is shorter. -/
structure Match.Saves (n pos2 : Nat) (m : Match) : Prop where
  long : 3 ≤ m.consumed
  shorter : m.bytes.length < m.consumed
  inside : pos2 + m.consumed ≤ n

theorem backMatch_saves {m : Match} (h : backMatch g n pos2 pos3 = some m) : m.Saves n pos2 := by
  have hcost (c : Cmd) (len : Nat) (hlen : 5 ≤ len) : (hdrEncode c len ++ posBytes pos3).length < len := by
    rw [List.length_append, hdrEncode_length, posBytes, List.length_cons, List.length_singleton]
    split <;> omega
  unfold backMatch Config.minCopy at h
  split at h
  case isTrue hf =>
    cases h
    exact ⟨Nat.le_of_add_right_le (k := 2) hf, hcost _ _ hf, fwdMatch_inside (by omega)⟩
  case isFalse =>
    split at h
    case isTrue hr =>
      cases h
      exact ⟨Nat.le_of_add_right_le (k := 2) hr, hcost _ _ hr, revMatch_inside (by omega)⟩
    case isFalse =>
      split at h
      case isTrue hb =>
        cases h
        exact ⟨Nat.le_of_add_right_le (k := 2) hb, hcost _ _ hb, bwdMatch_inside (by omega)⟩
      case isFalse => cases h

/-- What the back-reference search finds is a match at some `pos3`. -/
theorem backSearch_some {fuel : Nat} {m : Match} (h : backSearch g n pos2 fuel pos3 = some m) :
    ∃ q, backMatch g n pos2 q = some m := by
  induction fuel generalizing pos3 with
  | zero => cases h
  | succ fuel ih =>
    unfold backSearch at h
    split at h
    · rename_i hm
      cases h
      exact ⟨pos3, hm⟩
    · exact ih h

/-- R105 to R112: the shortest match of each strategy is longer than its token. -/
theorem select_saves {m : Match} (h : select g n pos2 = some m) : m.Saves n pos2 := by
  unfold select Config.minFill Config.minWord Config.minSeq at h
  split at h
  case isTrue hb =>
    cases h
    refine ⟨hb, ?_, byteRun_inside (by omega)⟩
    simp only [Match.bytes, Match.consumed, List.length_append, hdrEncode_length, List.length_singleton]
    split <;> omega
  case isFalse =>
    split at h
    case isTrue hw =>
      cases h
      refine ⟨by simp only [Match.consumed]; omega, ?_, wordRun_inside (by omega)⟩
      simp only [Match.bytes, Match.consumed, List.length_append, hdrEncode_length, List.length_cons,
        List.length_nil]
      split <;> omega
    case isFalse =>
      split at h
      case isTrue ha =>
        cases h
        refine ⟨Nat.le_of_succ_le ha, ?_, arithRun_inside (by omega)⟩
        simp only [Match.bytes, Match.consumed, List.length_append, hdrEncode_length, List.length_singleton]
        split <;> omega
      case isFalse =>
        obtain ⟨q, hq⟩ := backSearch_some h
        exact backMatch_saves hq

/-- R103: where the outer scan can end: at a match, or with none at the end of the input or of the window. -/
theorem scan_cases (fuel : Nat) (h : pos2 ≤ n) :
    ∃ p m, scan g n fuel pos2 = (p, m) ∧ pos2 ≤ p ∧ p ≤ pos2 + fuel ∧
      ((∃ m', m = some m' ∧ select g n p = some m') ∨ (m = none ∧ p ≤ n ∧ (p = n ∨ p = pos2 + fuel))) := by
  induction fuel generalizing pos2 with
  | zero => exact ⟨pos2, none, rfl, Nat.le_refl _, Nat.le_refl _, .inr ⟨rfl, h, .inr rfl⟩⟩
  | succ fuel ih =>
    rw [scan]
    by_cases hlt : pos2 < n
    · rw [if_pos hlt]
      cases hs : select g n pos2 with
      | some m => exact ⟨pos2, some m, rfl, Nat.le_refl _, by omega, .inl ⟨m, rfl, hs⟩⟩
      | none =>
        obtain ⟨p, m, hscan, hle, hfuel, hend⟩ := ih hlt
        refine ⟨p, m, hscan, by omega, by omega, hend.imp id ?_⟩
        rintro ⟨hm, hpn, hp⟩
        exact ⟨hm, hpn, by omega⟩
    · rw [if_neg hlt]
      exact ⟨pos2, none, rfl, Nat.le_refl _, by omega, .inr ⟨rfl, h, .inl (by omega)⟩⟩

/-- R102: an iteration inside the input emits the pending literal and a match, or a literal alone that ends with the
input or the window. -/
theorem iteration_cases {pos : Nat} (h : pos < n) :
    (∃ p m, pos ≤ p ∧ Match.Saves n p m ∧
        iteration g n pos = (p + m.consumed, literalBytes g pos p ++ m.bytes)) ∨
      ∃ p, pos ≤ p ∧ p ≤ n ∧ (p = n ∨ p = pos + 1024) ∧ iteration g n pos = (p, literalBytes g pos p) := by
  obtain ⟨p, m, hscan, hle, -, hend⟩ := scan_cases (g := g) Config.scanWin (Nat.le_of_lt h)
  rw [iteration, hscan]
  rcases hend with ⟨m', rfl, hsel⟩ | ⟨rfl, hpn, hp⟩
  · exact .inl ⟨p, m', hle, select_saves hsel, rfl⟩
  · exact .inr ⟨p, hle, hpn, hp, by rw [matchBytes, List.append_nil]; rfl⟩

/-- R133: one iteration inside the input stays inside it, and what it emits keeps the stream within one byte per 36
bytes covered, and 2 more at the end. A match pays for one byte of the literal's header, so only a literal of more than
32 bytes costs a byte, and it covers 36 bytes with the match; without a match the literal reaches the end of the input
or has 1024 bytes. -/
theorem iteration_amortized {pos : Nat} (h : pos < n) :
    (iteration g n pos).1 ≤ n ∧
      pos + pos / 36 + (iteration g n pos).2.length ≤
        (iteration g n pos).1 + (iteration g n pos).1 / 36 + if (iteration g n pos).1 = n then 2 else 0 := by
  rcases iteration_cases (g := g) h with ⟨p, m, hle, ⟨hlong, hshort, hin⟩, he⟩ | ⟨p, hle, hpn, hp, he⟩
  all_goals
    have hlit := literalBytes_length_le g pos p
    rw [he]
    dsimp only
  · refine ⟨hin, ?_⟩
    rw [List.length_append]
    split at hlit <;> omega
  · refine ⟨hpn, ?_⟩
    have hhdr : (literalBytes g pos p).length ≤ p - pos + 2 := by
      split at hlit <;> omega
    rcases hp with rfl | rfl
    · rw [if_pos rfl]
      omega
    · omega

end

end Sys2Proof.Machine
end

section
/-! PROOFS. The invariants of the block and of ENC (R11 to R23, R101, R133). -/

namespace Sys2Proof.Machine

/-! ### One step -/

/-- A property that survives taking a move from the agenda, every move of the host and every turn of a unit survives
every step. -/
theorem step_keeps {Inv : State → Prop} (hpop : ∀ s, Inv s → Inv (popAgenda s))
    (hhost : ∀ s t, Inv s → HostMove s t → Inv t) (hdec : ∀ s t, Inv s → decTurn s = .next t → Inv t)
    (henc : ∀ s t, Inv s → encTurn s = .next t → Inv t) (s t : State) (hs : Inv s) (h : step s = .next t) : Inv t := by
  unfold step at h
  split at h
  · exact hhost _ _ (hpop s hs) (hostStep_move h)
  · exact hdec _ _ (hpop s hs) h
  · exact henc _ _ (hpop s hs) h
  · cases h
    exact hs

/-! ### The block's invariant -/

/-- R11: every index of SRC, and the index after the last, fits the stream cursor. -/
theorem srcSize_le_two_pow_srcAw (n : Nat) : n ≤ 2 ^ Config.srcAw n := by
  unfold Config.srcAw
  split
  · assumption
  · have := Nat.lt_log2_self (n := n - 1)
    omega

/-- The block's invariant looks at the registers, the spaces and `SRC_SIZE` alone. -/
theorem BlockInv.congr {s t : State} (h : BlockInv s) (hdec : t.dec = s.dec) (henc : t.enc = s.enc)
    (hsrc : t.src = s.src) (hout : t.out = s.out) (hinp : t.inp = s.inp) (hcs : t.cs = s.cs)
    (hsize : t.srcSize = s.srcSize) : BlockInv t := by
  cases s
  cases t
  subst hdec henc hsrc hout hinp hcs hsize
  exact ⟨{ h.spaces with }, { h.registers with }⟩

/-- A change of ENC's registers and CS keeps the invariant if the error code stays with FAILED and CS canonical. -/
theorem BlockInv.setEnc {s : State} (h : BlockInv s) {e : Enc} {cs : Memory}
    (herr : e.err = .none ↔ e.status ≠ .failed) (hcs : Memory.wf cs = true) :
    BlockInv { s with enc := e, cs := cs } :=
  ⟨{ h.spaces with cs_wf := hcs }, { h.registers with enc_err := herr }⟩

theorem BlockInv.startEnc {s : State} (h : BlockInv s) : BlockInv (startEnc s) := by
  rcases startEnc_cases s with ⟨-, he⟩ | ⟨-, he⟩ | ⟨-, -, he⟩ <;> rw [he] <;>
    exact h.setEnc (by simp) h.spaces.cs_wf

theorem BlockInv.startDec {s : State} (h : BlockInv s) : BlockInv (startDec s) :=
  ⟨{ h.spaces with },
    { h.registers with
      dec_err := by simp
      oc_le := Nat.zero_le _
      written := nofun
      sc_le := Nat.le_of_lt h.registers.srcOff_lt }⟩

theorem BlockInv.setSrcOff {s : State} (h : BlockInv s) (v : Nat) : BlockInv (setSrcOff v s) :=
  ⟨{ h.spaces with }, { h.registers with srcOff_lt := Nat.mod_lt _ (Nat.two_pow_pos _) }⟩

theorem BlockInv.putMem {s : State} (h : BlockInv s) {sp : Space} {a : Nat} (hin : a < spaceSize s sp) (b : Byte) :
    BlockInv (putMem sp a b s) := by
  cases sp with
  | src =>
    exact ⟨{ h.spaces with
      src_wf := Memory.wf_write h.spaces.src_wf a b
      src_in := Memory.below_write h.spaces.src_in hin b }, { h.registers with }⟩
  | out =>
    exact ⟨{ h.spaces with
      out_wf := Memory.wf_write h.spaces.out_wf a b
      out_in := Memory.below_write h.spaces.out_in hin b },
      { h.registers with written := fun x hx => Memory.isSome_write (h.registers.written x hx) a b }⟩
  | inp =>
    exact ⟨{ h.spaces with
      inp_wf := Memory.wf_write h.spaces.inp_wf a b
      inp_in := Memory.below_write h.spaces.inp_in hin b }, { h.registers with }⟩
  | cs => exact ⟨{ h.spaces with cs_wf := Memory.wf_write h.spaces.cs_wf a b }, { h.registers with }⟩

/-- R37: the reset values of the registers are legal, whatever the spaces hold. -/
theorem RegistersOk.of_reset {s : State} (hdec : s.dec = Dec.reset) (henc : s.enc = Enc.reset) : RegistersOk s where
  dec_err := by rw [hdec]; decide
  enc_err := by rw [henc]; decide
  oc_le := by rw [hdec]; exact Nat.zero_le _
  written := by rw [hdec]; exact nofun
  srcOff_lt := by rw [hdec]; exact Nat.two_pow_pos _
  sc_le := by rw [hdec]; exact Nat.zero_le _

theorem BlockInv.applyReset {s : State} (h : BlockInv s) : BlockInv (applyReset s) :=
  ⟨{ h.spaces with }, .of_reset rfl rfl⟩

theorem BlockInv.hostMove {s t : State} (h : BlockInv s) (hm : HostMove s t) : BlockInv t := by
  cases hm with
  | ignored => exact h
  | startEnc _ => exact h.startEnc
  | setInLen v _ => exact h.setEnc h.registers.enc_err h.spaces.cs_wf
  | startDec _ => exact h.startDec
  | setSrcOff v _ => exact h.setSrcOff v
  | returned v =>
    rw [returnView_frame]
    exact h.congr rfl rfl rfl rfl rfl rfl rfl
  | stored b hin => exact h.putMem hin b
  | reset => exact h.applyReset

/-- R13, R15, R23: each result of a token of a RUNNING DEC keeps the invariant. -/
theorem BlockInv.tokenResult {s t : State} {size : Nat} (h : BlockInv s) (hr : s.dec.status = .running)
    (hsize : size ≤ s.srcSize - s.dec.sc) (hres : TokenResult size s (.next t)) : BlockInv t := by
  have herr : s.dec.err = .none := h.registers.dec_err.2 (by simp [hr])
  cases hres with
  | failed hc => exact ⟨{ h.spaces with }, { h.registers with dec_err := by simp [hc] }⟩
  | finished => exact ⟨{ h.spaces with }, { h.registers with dec_err := by simp [herr] }⟩
  | @done written out draws hout =>
    refine ⟨{ h.spaces with out_wf := hout.wf h.spaces.out_wf, out_in := hout.below h.spaces.out_in },
      { h.registers with oc_le := hout.fits, written := fun x hx => hout.listed x ?_, sc_le := ?_ }⟩
    · rcases Nat.lt_or_ge x s.dec.oc with hlt | hge
      · exact .inl (h.registers.written x hlt)
      · exact .inr ⟨hge, hx⟩
    · have hpow := srcSize_le_two_pow_srcAw s.srcSize
      have hsc := h.registers.sc_le
      simp only [commit_dec_sc, commit_srcSize]
      omega

theorem BlockInv.decTurn {s t : State} (h : BlockInv s) (ht : decTurn s = .next t) : BlockInv t := by
  rcases decTurn_cases s with ⟨-, he⟩ | ⟨hr, size, hsize, hres⟩
  · rw [he] at ht
    cases ht
    exact h
  · rw [ht] at hres
    exact h.tokenResult hr hsize hres

theorem BlockInv.encTurn {s t : State} (h : BlockInv s) (ht : encTurn s = .next t) : BlockInv t := by
  rcases encTurn_cases s with ⟨-, he⟩ | ⟨-, -, he⟩ | ⟨hr, -, he⟩ <;> rw [he] at ht <;> cases ht
  · exact h
  · rw [encIteration_eq]
    exact h.setEnc h.registers.enc_err (emitAll_wf _ h.spaces.cs_wf)
  · have herr : s.enc.err = .none := h.registers.enc_err.2 (by simp [hr])
    exact h.setEnc (by simp [herr]) (Memory.wf_write h.spaces.cs_wf _ _)

/-- Settles O43: each agent's move keeps the invariant. -/
theorem stepKeepsBlockInv : Obligations.StepKeepsBlockInv :=
  step_keeps (fun _ h => h.congr rfl rfl rfl rfl rfl rfl rfl) (fun _ _ h hm => h.hostMove hm)
    (fun _ _ h ht => h.decTurn ht) fun _ _ h ht => h.encTurn ht

/-- Settles O42: nothing is listed, and the registers hold their reset values. -/
theorem resetMeetsBlockInv : Obligations.ResetMeetsBlockInv :=
  ⟨⟨rfl, rfl, rfl, rfl, rfl, rfl, rfl⟩, .of_reset rfl rfl⟩

/-! ### ENC's invariant -/

/-- ENC's invariant looks at ENC's registers and CS alone. -/
theorem EncInv.congr {s t : State} (h : EncInv s) (henc : t.enc = s.enc) (hcs : t.cs = s.cs) : EncInv t := by
  cases s
  cases t
  subst henc hcs
  exact { h with }

/-- ENC's invariant of a unit that is not RUNNING: the bounds of the largest input. -/
theorem EncInv.of_quiet {s : State} (hr : s.enc.status ≠ .running) (hpos : s.enc.pos ≤ Config.inMax)
    (hwp : s.enc.wp ≤ Config.csBound Config.inMax) (hcs : Memory.below s.cs Config.csSize = true) : EncInv s :=
  ⟨fun h => absurd h hr, fun h => absurd h hr, fun h => absurd h hr, hpos, hwp, hcs⟩

/-- R133: CS has room for the stream of the largest input. -/
theorem csBound_inMax_le_csSize : Config.csBound Config.inMax ≤ Config.csSize := by decide

/-- R30, R101: a START begins at 0, and RUNNING only with an accepted length. -/
theorem EncInv.startEnc {s : State} (h : EncInv s) : EncInv (startEnc s) := by
  rcases startEnc_cases s with ⟨-, he⟩ | ⟨-, he⟩ | ⟨hlo, hhi, he⟩ <;> rw [he]
  · exact .of_quiet nofun (Nat.zero_le _) (Nat.zero_le _) h.cs_in
  · exact .of_quiet nofun (Nat.zero_le _) (Nat.zero_le _) h.cs_in
  · exact ⟨fun _ => ⟨hlo, hhi⟩, fun _ => Nat.zero_le _, fun _ => Nat.zero_le _, Nat.zero_le _, Nat.zero_le _, h.cs_in⟩

theorem EncInv.putMem {s : State} (h : EncInv s) {sp : Space} {a : Nat} (hin : a < spaceSize s sp) (b : Byte) :
    EncInv (putMem sp a b s) := by
  cases sp with
  | src | out | inp => exact h.congr rfl rfl
  | cs => exact { h with cs_in := Memory.below_write h.cs_in hin b }

theorem EncInv.hostMove {s t : State} (h : EncInv s) (hm : HostMove s t) : EncInv t := by
  cases hm with
  | ignored => exact h
  | startEnc _ => exact h.startEnc
  | setInLen v hr => exact .of_quiet hr h.pos_bound h.wp_bound h.cs_in
  | startDec _ => exact h.congr rfl rfl
  | setSrcOff v _ => exact h.congr rfl rfl
  | returned v =>
    rw [returnView_frame]
    exact h.congr rfl rfl
  | stored b hin => exact h.putMem hin b
  | reset => exact .of_quiet nofun (Nat.zero_le _) (Nat.zero_le _) h.cs_in

/-- R127, R133: an iteration inside the input keeps the bound on the stream. -/
theorem EncInv.encIteration {s : State} (h : EncInv s) (hr : s.enc.status = .running) (hpos : s.enc.pos < inLength s) :
    EncInv (encIteration s) := by
  obtain ⟨hin, hbytes⟩ := iteration_amortized (g := inByte s) hpos
  have hlen := h.accepted hr
  have hwp := h.wp_running hr
  rw [if_neg (Nat.ne_of_lt hpos)] at hwp
  rw [encIteration_eq]
  generalize iteration (inByte s) (inLength s) s.enc.pos = r at *
  have hwp' : s.enc.wp + r.2.length ≤ r.1 + r.1 / 36 + if r.1 = inLength s then 2 else 0 := by omega
  have hbound : s.enc.wp + r.2.length ≤ Config.csBound Config.inMax := by
    have := hlen.2
    simp only [Config.csBound, Config.inMax] at *
    split at hwp' <;> omega
  exact ⟨fun _ => hlen, fun _ => hin, fun _ => hwp', hin.trans hlen.2, hbound,
    emitAll_below _ h.cs_in (hbound.trans csBound_inMax_le_csSize)⟩

/-- R129, R133: the terminator is the last byte of the bound. -/
theorem EncInv.encFinish {s : State} (h : EncInv s) (hr : s.enc.status = .running) (hpos : inLength s ≤ s.enc.pos) :
    EncInv (encFinish s) := by
  have hlen := h.accepted hr
  have hwp := h.wp_running hr
  have hend : s.enc.pos = inLength s := Nat.le_antisymm (h.pos_le hr) hpos
  rw [if_pos hend] at hwp
  have hbound : s.enc.wp + 1 ≤ Config.csBound Config.inMax := by
    have := hlen.2
    simp only [Config.csBound, Config.inMax] at *
    omega
  exact .of_quiet nofun h.pos_bound hbound
    (Memory.below_write h.cs_in (Nat.lt_of_lt_of_le hbound csBound_inMax_le_csSize) _)

theorem EncInv.encTurn {s t : State} (h : EncInv s) (ht : encTurn s = .next t) : EncInv t := by
  rcases encTurn_cases s with ⟨-, he⟩ | ⟨hr, hpos, he⟩ | ⟨hr, hpos, he⟩ <;> rw [he] at ht <;> cases ht
  · exact h
  · exact h.encIteration hr hpos
  · exact h.encFinish hr hpos

theorem EncInv.decTurn {s t : State} (h : EncInv s) (ht : decTurn s = .next t) : EncInv t := by
  obtain ⟨d, out, draws, he⟩ := decTurn_next s
  rw [he] at ht
  cases ht
  exact h.congr rfl rfl

/-- Settles O45: each agent's move keeps the invariant; only ENC's own iteration has to account for bytes. -/
theorem stepKeepsEncInv : Obligations.StepKeepsEncInv :=
  step_keeps (fun _ h => h.congr rfl rfl) (fun _ _ h hm => h.hostMove hm)
    (fun _ _ h ht => h.decTurn ht) fun _ _ h ht => h.encTurn ht

/-- Settles O44: after reset ENC is not RUNNING and its cursors are 0. -/
theorem resetMeetsEncInv : Obligations.ResetMeetsEncInv :=
  .of_quiet nofun (Nat.zero_le _) (Nat.zero_le _) rfl

end Sys2Proof.Machine
end

section
/-! PROOFS. A turn of each unit neither sees nor touches what the other may write, so turns commute (R10, R49, R197). -/

namespace Sys2Proof.Machine

/-- The result with its next state changed. -/
def onNext (f : State → State) : Result → Result
  | .next s => .next (f s)
  | .fault r => .fault r
  | .refused r => .refused r

section
variable (e : Enc) (cs : Memory)

theorem fetchRun_withEnc (s : State) (k a : Nat) : fetchRun (withEnc e cs s) k a = fetchRun s k a := by
  induction k generalizing a with
  | zero => rfl
  | succ k ih =>
    have hfetch : fetch (withEnc e cs s) a = fetch s a := rfl
    rw [fetchRun, fetchRun, hfetch]
    simp only [ih]

theorem withRoom_withEnc {bytes : Nat} {s : State} {act act' : Result} (h : act' = onNext (withEnc e cs) act) :
    withRoom bytes (withEnc e cs s) act' = onNext (withEnc e cs) (withRoom bytes s act) := by
  rcases withRoom_cases bytes s act with ⟨hfit, he⟩ | ⟨hfull, he⟩ <;> rw [he]
  · exact (withRoom_fits (s := withEnc e cs s) hfit _).trans h
  · exact withRoom_full (s := withEnc e cs s) hfull _

theorem forwardBody_withEnc (h len : Nat) (addr : Addr) (f : Byte → Byte) (s : State) :
    forwardBody h len addr f (withEnc e cs s) = onNext (withEnc e cs) (forwardBody h len addr f s) := by
  rw [forwardBody, forwardBody, withAddr_eq, withAddr_eq]
  refine withRoom_withEnc e cs ?_
  split <;> rfl

theorem backwardBody_withEnc (h len : Nat) (addr : Addr) (s : State) :
    backwardBody h len addr (withEnc e cs s) = onNext (withEnc e cs) (backwardBody h len addr s) := by
  rw [backwardBody, backwardBody, withAddr_eq, withAddr_eq]
  refine withRoom_withEnc e cs ?_
  split <;> rfl

/-- R49: no token sees or touches what ENC may write. -/
theorem exec_withEnc (i : Instr) (s : State) : exec i (withEnc e cs s) = onNext (withEnc e cs) (exec i s) := by
  cases i with
  | literalS len bytes | literalL len bytes => exact withRoom_withEnc e cs rfl
  | fillS len v | fillL len v => exact withRoom_withEnc e cs rfl
  | wordFillS len v0 v1 | wordFillL len v0 v1 => exact withRoom_withEnc e cs (withRoom_withEnc e cs rfl)
  | sequenceS len v | sequenceL len v => exact withRoom_withEnc e cs rfl
  | copyForwardS len addr | copyForwardL len addr => exact forwardBody_withEnc e cs _ len addr id s
  | copyBitReversedS len addr | copyBitReversedL len addr => exact forwardBody_withEnc e cs _ len addr bitrev s
  | copyBackwardS len addr | copyBackwardL len addr => exact backwardBody_withEnc e cs _ len addr s
  | reserved7FC b1 | reserved7FD b1 | reserved7FE b1 | terminator => rfl

theorem decTurn_withEnc (s : State) : decTurn (withEnc e cs s) = onNext (withEnc e cs) (decTurn s) := by
  have hstep : decStep (withEnc e cs s) = onNext (withEnc e cs) (decStep s) := by
    have hwindow : fetchWindow (withEnc e cs s) = fetchWindow s := fetchRun_withEnc e cs s _ _
    rw [decStep, decStep, hwindow]
    cases decode (fetchWindow s) with
    | ok i rest => exact exec_withEnc e cs i s
    | headerCut => rfl
    | payloadCut len => exact withRoom_withEnc e cs rfl
  by_cases hr : s.dec.status = .running
  · have hr' : (withEnc e cs s).dec.status = .running := hr
    rw [decTurn, decTurn, if_pos hr, if_pos hr', hstep]
  · have hr' : ¬ (withEnc e cs s).dec.status = .running := hr
    rw [decTurn, decTurn, if_neg hr, if_neg hr']
    rfl

end

section
variable (d : Dec) (out : Memory) (draws : Nat)

theorem emitAll_withDec (bs : List Byte) (s : State) :
    emitAll bs (withDec d out draws s) = withDec d out draws (emitAll bs s) := by
  induction bs generalizing s with
  | nil => rfl
  | cons b bs ih => exact ih (emit b s)

theorem encIteration_withDec (s : State) :
    encIteration (withDec d out draws s) = withDec d out draws (encIteration s) := by
  simp only [encIteration]
  rw [emitAll_withDec]
  rfl

/-- R49: ENC neither sees nor touches what DEC may write. -/
theorem encTurn_withDec (s : State) : encTurn (withDec d out draws s) = onNext (withDec d out draws) (encTurn s) := by
  rcases encTurn_cases s with ⟨hr, h⟩ | ⟨hr, hpos, h⟩ | ⟨hr, hpos, h⟩ <;> rw [h]
  · exact if_neg hr
  · rw [onNext, ← encIteration_withDec]
    exact (if_pos hr).trans (if_pos hpos)
  · exact (if_pos hr).trans (if_neg (Nat.not_lt.2 hpos))

end

/-- Settles O41: each turn answers a next state that differs only where the other unit neither reads nor writes. -/
theorem unitTurnsCommute : Obligations.UnitTurnsCommute := by
  intro s
  obtain ⟨d, out, draws, hd⟩ := decTurn_next s
  obtain ⟨e, cs, he⟩ := encTurn_next s
  refine ⟨_, _, withEnc e cs (withDec d out draws s), hd, he, ?_, ?_⟩
  · rw [encTurn_withDec, he]
    rfl
  · rw [decTurn_withEnc, hd]
    rfl

end Sys2Proof.Machine
end

section
/-! PROOFS. ENC's strategies, scan, iteration and stream depend on the input bytes below `n` alone (R53, R100): every
measuring loop tests the bound before it reads a byte, and the scan and the literals stay inside the input. -/

namespace Sys2Proof.Machine

/-- A measuring loop whose bound test comes first: its byte test matters only where the bound test passes. -/
theorem countWhile_congr_of_guard {guard p q : Nat → Bool} {fuel : Nat} (h : ∀ l, guard l = true → p l = q l) :
    countWhile (fun l => guard l && p l) fuel 0 = countWhile (fun l => guard l && q l) fuel 0 := by
  congr 1
  funext l
  cases hl : guard l with
  | false => rfl
  | true => rw [h l hl]

section
variable {g g' : Nat → Byte} {n : Nat} (hg : ∀ i, i < n → g i = g' i)
include hg

/-! ### The strategies -/

theorem byteRun_congr (pos2 : Nat) : byteRun g n pos2 = byteRun g' n pos2 := by
  refine countWhile_congr_of_guard fun l hl => ?_
  have hin : pos2 + l < n := of_decide_eq_true hl
  rw [hg _ hin, hg pos2 (by omega)]

theorem wordRun_congr (pos2 : Nat) : wordRun g n pos2 = wordRun g' n pos2 := by
  unfold wordRun
  split
  · rfl
  · simp only [Bool.and_assoc]
    refine countWhile_congr_of_guard fun r hr => ?_
    have hin : pos2 + 2 * r + 1 < n := of_decide_eq_true hr
    rw [hg _ hin, hg (pos2 + 2 * r) (by omega), hg (pos2 + 1) (by omega), hg pos2 (by omega)]

theorem arithRun_congr (pos2 : Nat) : arithRun g n pos2 = arithRun g' n pos2 := by
  refine countWhile_congr_of_guard fun l hl => ?_
  have hin : pos2 + l < n := of_decide_eq_true hl
  rw [hg _ hin, hg pos2 (by omega)]

/-- R110, R111: the two matches that read up from `pos3` and stop before `pos2`. -/
theorem countWhile_upward_congr (f : Byte → Byte) (pos2 pos3 : Nat) :
    countWhile (fun l => pos3 + l < pos2 && pos2 + l < n && g (pos3 + l) == f (g (pos2 + l))) Config.copyWin 0 =
      countWhile (fun l => pos3 + l < pos2 && pos2 + l < n && g' (pos3 + l) == f (g' (pos2 + l))) Config.copyWin 0 := by
  refine countWhile_congr_of_guard fun l hl => ?_
  simp only [Bool.and_eq_true, decide_eq_true_eq] at hl
  obtain ⟨hbefore, hin⟩ := hl
  rw [hg _ hin, hg (pos3 + l) (by omega)]

theorem fwdMatch_congr (pos2 pos3 : Nat) : fwdMatch g n pos2 pos3 = fwdMatch g' n pos2 pos3 :=
  countWhile_upward_congr hg id pos2 pos3

theorem revMatch_congr (pos2 pos3 : Nat) : revMatch g n pos2 pos3 = revMatch g' n pos2 pos3 :=
  countWhile_upward_congr hg bitrev pos2 pos3

/-- R112: the backward match reads down from `pos3`, so `pos3` itself has to be inside the input. -/
theorem bwdMatch_congr (pos2 : Nat) {pos3 : Nat} (h : pos3 < n) : bwdMatch g n pos2 pos3 = bwdMatch g' n pos2 pos3 := by
  refine countWhile_congr_of_guard fun l hl => ?_
  simp only [Bool.and_eq_true, decide_eq_true_eq] at hl
  obtain ⟨-, hin⟩ := hl
  rw [hg _ hin, hg (pos3 - l) (by omega)]

/-! ### The selector and the scan -/

theorem backMatch_congr (pos2 : Nat) {pos3 : Nat} (h : pos3 < n) :
    backMatch g n pos2 pos3 = backMatch g' n pos2 pos3 := by
  rw [backMatch, backMatch, fwdMatch_congr hg, revMatch_congr hg, bwdMatch_congr hg pos2 h]

/-- R108: a search whose candidates are all inside the input. -/
theorem backSearch_congr (pos2 : Nat) {fuel pos3 : Nat} (h : pos3 + fuel ≤ n) :
    backSearch g n pos2 fuel pos3 = backSearch g' n pos2 fuel pos3 := by
  induction fuel generalizing pos3 with
  | zero => rfl
  | succ fuel ih => rw [backSearch, backSearch, backMatch_congr hg pos2 (by omega), ih (by omega)]

theorem select_congr {pos2 : Nat} (h : pos2 < n) : select g n pos2 = select g' n pos2 := by
  rw [select, select, byteRun_congr hg, wordRun_congr hg, arithRun_congr hg, hg pos2 h,
    backSearch_congr hg pos2 (by omega)]
  by_cases hw : wordRun g' n pos2 ≥ Config.minWord
  · have hpos : 0 < wordRun g' n pos2 := Nat.lt_of_lt_of_le (by decide) hw
    have hin := wordRun_inside hpos
    rw [hg (pos2 + 1) (by omega)]
  · rw [if_neg hw, if_neg hw]

theorem scan_congr (fuel pos2 : Nat) : scan g n fuel pos2 = scan g' n fuel pos2 := by
  induction fuel generalizing pos2 with
  | zero => rfl
  | succ fuel ih =>
    rw [scan, scan]
    by_cases hlt : pos2 < n
    · rw [select_congr hg hlt, ih]
    · rw [if_neg hlt, if_neg hlt]

/-! ### The stream -/

theorem inputRun_congr {k a : Nat} (h : a + k ≤ n) : inputRun g k a = inputRun g' k a := by
  induction k generalizing a with
  | zero => rfl
  | succ k ih => rw [inputRun, inputRun, hg a (by omega), ih (by omega)]

theorem literalBytes_congr (pos : Nat) {pos2 : Nat} (h : pos2 ≤ n) :
    literalBytes g pos pos2 = literalBytes g' pos pos2 := by
  unfold literalBytes
  split
  · rw [inputRun_congr hg (by omega)]
  · rfl

/-- R102: the literal of an iteration ends where the scan ends, inside the input. -/
theorem iteration_congr {pos : Nat} (h : pos < n) : iteration g n pos = iteration g' n pos := by
  have hend : (scan g' n Config.scanWin pos).1 ≤ n := by
    obtain ⟨p, m, hscan, -, -, hcases⟩ := scan_cases (g := g') Config.scanWin (Nat.le_of_lt h)
    rw [hscan]
    rcases hcases with ⟨m', -, hsel⟩ | ⟨-, hpn, -⟩
    · exact Nat.le_of_add_right_le (select_saves hsel).inside
    · exact hpn
  simp only [iteration]
  rw [scan_congr hg, literalBytes_congr hg pos hend]

theorem streamFrom_congr (fuel pos : Nat) : streamFrom g n fuel pos = streamFrom g' n fuel pos := by
  induction fuel generalizing pos with
  | zero => rfl
  | succ fuel ih =>
    rw [streamFrom, streamFrom]
    by_cases hlt : pos < n
    · rw [iteration_congr hg hlt, ih]
    · rw [if_neg hlt, if_neg hlt]

end

/-- Settles O55: from `pos = 0` on, every iteration of the two operations is the same. -/
theorem compressReadsOnlyTheInput : Obligations.CompressReadsOnlyTheInput :=
  fun _ _ n hg => streamFrom_congr hg n 0

end Sys2Proof.Machine
end

section
/-! PROOFS. The token codec (R61 to R69): the decoder and the encoder undo each other, the decoder stops only where the
bytes end, and a step of DEC runs the token whose encoding SRC holds. -/

namespace Sys2Proof

open Sys2Proof.Machine Sys2Proof.Laws

/-! ### The header bytes as numbers -/

theorem Cmd.code_lt (c : Cmd) : c.code < 7 := by cases c <;> decide

/-- R63: every type below the reserved 7 is a command's. -/
theorem Cmd.exists_code : ∀ {n : Nat}, n < 7 → ∃ c : Cmd, c.code = n
  | 0, _ => ⟨.literal, rfl⟩
  | 1, _ => ⟨.fill, rfl⟩
  | 2, _ => ⟨.wordFill, rfl⟩
  | 3, _ => ⟨.sequence, rfl⟩
  | 4, _ => ⟨.copyForward, rfl⟩
  | 5, _ => ⟨.copyBitReversed, rfl⟩
  | 6, _ => ⟨.copyBackward, rfl⟩
  | n + 7, h => absurd h (by omega)

/-- R65: the type field that holds a command's code reads as that command. -/
theorem Cmd.ofBits_of_code {t : BitVec 3} {c : Cmd} (h : t.toNat = c.code) : Cmd.ofBits t = some c := by
  rw [Cmd.ofBits, h]
  cases c <;> rfl

/-- R61: the short form begins below 0xE0. -/
theorem isShort_iff (b0 : Byte) : isShort b0 = true ↔ b0.toNat < 224 := by
  have := b0.isLt
  rw [isShort, bne_iff_ne, Ne, BitVec.toNat_eq, BitVec.extractLsb_toNat, Nat.shiftRight_eq_div_pow]
  simp only [BitVec.toNat_ofNat]
  omega

theorem shortHeader_eq_iff (c : Cmd) {len : Nat} (h : shortLen len = true) (b0 : Byte) :
    shortHeader c len = [b0] ↔ b0.toNat = c.code * 32 + (len - 1) := by
  obtain ⟨h1, h2⟩ := (shortLen_iff len).1 h
  have := c.code_lt
  rw [shortHeader, List.singleton_inj, BitVec.toNat_eq, BitVec.toNat_ofNat]
  omega

theorem longHeader_eq_iff (c : Cmd) {len : Nat} (h : longLen len = true) (b0 b1 : Byte) :
    longHeader c len = [b0, b1] ↔ b0.toNat = 224 + 4 * c.code + (len - 1) / 256 ∧ b1.toNat = (len - 1) % 256 := by
  obtain ⟨h1, h2⟩ := (longLen_iff len).1 h
  have := c.code_lt
  rw [longHeader, List.cons.injEq, List.singleton_inj, BitVec.toNat_eq, BitVec.toNat_eq, BitVec.toNat_ofNat,
    BitVec.toNat_ofNat]
  omega

/-! ### What `HdrDecode` makes of a header -/

/-- R86: a short header is read back, whatever byte follows. -/
theorem hdrDecode_short {c : Cmd} {len : Nat} {b0 : Byte} (h : shortLen len = true) (e : shortHeader c len = [b0])
    (b1 : Byte) : isShort b0 = true ∧ hdrDecode b0 b1 = some (c, len, 1) := by
  rw [shortHeader_eq_iff c h] at e
  obtain ⟨h1, h2⟩ := (shortLen_iff len).1 h
  have hcode := c.code_lt
  have hshort : isShort b0 = true := (isShort_iff b0).2 (by omega)
  have htype : Cmd.ofBits (b0.extractLsb 7 5) = some c :=
    Cmd.ofBits_of_code (by rw [BitVec.extractLsb_toNat, Nat.shiftRight_eq_div_pow]; omega)
  have hlen : shortLength b0 = len := by
    rw [shortLength, BitVec.extractLsb_toNat, Nat.shiftRight_eq_div_pow]
    omega
  exact ⟨hshort, by rw [hdrDecode, if_pos hshort, htype, hlen]; rfl⟩

/-- R86: a long header is read back, canonical or not (R89). -/
theorem hdrDecode_long {c : Cmd} {len : Nat} {b0 b1 : Byte} (h : longLen len = true) (e : longHeader c len = [b0, b1]) :
    isShort b0 = false ∧ hdrDecode b0 b1 = some (c, len, 2) := by
  rw [longHeader_eq_iff c h] at e
  obtain ⟨e0, e1⟩ := e
  obtain ⟨h1, h2⟩ := (longLen_iff len).1 h
  have hcode := c.code_lt
  have hlong : ¬ isShort b0 = true := by rw [isShort_iff]; omega
  have htype : Cmd.ofBits (b0.extractLsb 4 2) = some c :=
    Cmd.ofBits_of_code (by rw [BitVec.extractLsb_toNat, Nat.shiftRight_eq_div_pow]; omega)
  have hlen : longLength b0 b1 = len := by
    rw [longLength, BitVec.toNat_append, ← Nat.shiftLeft_add_eq_or_of_lt b1.isLt, BitVec.extractLsb_toNat,
      Nat.shiftRight_eq_div_pow, Nat.shiftLeft_eq]
    omega
  exact ⟨Bool.eq_false_of_not_eq_true hlong, by rw [hdrDecode, if_neg hlong, htype, hlen]; rfl⟩

/-! ### The decoder, by the form of the first bytes -/

theorem decode_shortHeader (c : Cmd) {len : Nat} (h : shortLen len = true) (bs : List Byte) :
    decode (shortHeader c len ++ bs) = decodeShort c len bs := by
  obtain ⟨b0, e⟩ : ∃ b0, shortHeader c len = [b0] := ⟨_, rfl⟩
  obtain ⟨hshort, hhdr⟩ := hdrDecode_short h e 0#8
  have hterm : b0 ≠ Config.term := by
    rintro rfl
    exact absurd hshort (by decide)
  simp only [e, List.singleton_append, decode, if_neg hterm, if_pos hshort, hhdr]

theorem decode_longHeader (c : Cmd) {len : Nat} (h : longLen len = true) (bs : List Byte) :
    decode (longHeader c len ++ bs) = decodeLong c len bs := by
  obtain ⟨b0, b1, e⟩ : ∃ b0 b1, longHeader c len = [b0, b1] := ⟨_, _, rfl⟩
  obtain ⟨hlong, hhdr⟩ := hdrDecode_long h e
  have hterm : b0 ≠ Config.term := by
    rintro rfl
    cases hhdr
  simp only [e, List.cons_append, List.nil_append, decode, if_neg hterm, hlong, hhdr, Bool.false_eq_true, if_false]

/-- R144: a long form's first byte alone is a header cut off. -/
theorem decode_lone {b0 : Byte} (hterm : b0 ≠ 0xFF#8) (hlong : b0.extractLsb 7 5 = 7#3) : decode [b0] = .headerCut := by
  have hshort : ¬ isShort b0 = true := by rw [isShort, hlong]; decide
  exact (if_neg hterm).trans (if_neg hshort)

/-- R64: what a stream can begin with, by the rows of the opcode map. -/
inductive Head : List Byte → Prop
  | empty : Head []
  | lone {b0 : Byte} (hterm : b0 ≠ 0xFF#8) (hlong : b0.extractLsb 7 5 = 7#3) : Head [b0]
  | short (c : Cmd) {len : Nat} (h : shortLen len = true) (bs : List Byte) : Head (shortHeader c len ++ bs)
  | long (c : Cmd) {len : Nat} (h : longLen len = true) (bs : List Byte) : Head (longHeader c len ++ bs)
  | reserved7FC (b1 : Byte) (bs : List Byte) : Head (0xFC#8 :: b1 :: bs)
  | reserved7FD (b1 : Byte) (bs : List Byte) : Head (0xFD#8 :: b1 :: bs)
  | reserved7FE (b1 : Byte) (bs : List Byte) : Head (0xFE#8 :: b1 :: bs)
  | terminator (bs : List Byte) : Head (0xFF#8 :: bs)

/-- R65: below 0xE0, byte 0 is the short header of its own two fields. -/
theorem head_of_short {b0 : Byte} (h : b0.toNat < 224) (bs : List Byte) : Head (b0 :: bs) := by
  obtain ⟨c, hc⟩ : ∃ c : Cmd, c.code = b0.toNat / 32 := Cmd.exists_code (by omega)
  have hlen : shortLen (b0.toNat % 32 + 1) = true := (shortLen_iff _).2 (by omega)
  have e : shortHeader c (b0.toNat % 32 + 1) = [b0] := (shortHeader_eq_iff c hlen b0).2 (by omega)
  have hhead := Head.short c hlen bs
  rwa [e] at hhead

/-- R65: from 0xE0 to 0xFB, bytes 0 and 1 are the long header of their own fields. -/
theorem head_of_long {b0 : Byte} (h : 224 ≤ b0.toNat) (h' : b0.toNat < 252) (b1 : Byte) (bs : List Byte) :
    Head (b0 :: b1 :: bs) := by
  have hb1 := b1.isLt
  obtain ⟨c, hc⟩ : ∃ c : Cmd, c.code = b0.toNat / 4 % 8 := Cmd.exists_code (by omega)
  have hlen : longLen (b0.toNat % 4 * 256 + b1.toNat + 1) = true := (longLen_iff _).2 (by omega)
  have e : longHeader c (b0.toNat % 4 * 256 + b1.toNat + 1) = [b0, b1] :=
    (longHeader_eq_iff c hlen b0 b1).2 (by omega)
  have hhead := Head.long c hlen bs
  rwa [e] at hhead

/-- R64: every byte string begins in one of these ways. -/
theorem head_cases (bs : List Byte) : Head bs := by
  match bs with
  | [] => exact .empty
  | b0 :: bs =>
    by_cases hshort : b0.toNat < 224
    · exact head_of_short hshort bs
    by_cases hterm : b0 = 0xFF#8
    · exact hterm ▸ .terminator bs
    match bs with
    | [] =>
      refine .lone hterm ?_
      rwa [← isShort_iff, isShort, bne_iff_ne, not_not] at hshort
    | b1 :: bs =>
      by_cases hlong : b0.toNat < 252
      · exact head_of_long (Nat.le_of_not_lt hshort) hlong b1 bs
      obtain rfl | rfl | rfl : b0 = 0xFC#8 ∨ b0 = 0xFD#8 ∨ b0 = 0xFE#8 := by bv_omega
      · exact .reserved7FC b1 bs
      · exact .reserved7FD b1 bs
      · exact .reserved7FE b1 bs

/-! ### The payload -/

theorem takeRun_append {len : Nat} {run : List Byte} (h : run.length = len) (rest : List Byte) (k : List Byte → Instr) :
    takeRun len (run ++ rest) k = .ok (k run) rest := by
  subst h
  rw [takeRun, splitExact_append]

/-- R41: the address is read back from its two bytes. -/
theorem takeAddr_addrBytes (len : Nat) (addr : Addr) (rest : List Byte) (k : Addr → Instr) :
    takeAddr len (addrBytes addr ++ rest) k = .ok (k addr) rest :=
  congrArg (fun a => DecodeResult.ok (k a) rest) (BitVec.extractLsb'_append_extractLsb' (len := 8))

theorem addrBytes_append (hi lo : Byte) : addrBytes (hi ++ lo) = [hi, lo] := by
  have hhi : (hi ++ lo).extractLsb 15 8 = hi := BitVec.extractLsb'_append_eq_left
  have hlo : (hi ++ lo).extractLsb 7 0 = lo := BitVec.extractLsb'_append_eq_right
  rw [addrBytes, hhi, hlo]

/-! ### Decoding an encoding -/

/-- Settles O1: the header is read back by its form, then the payload by its kind. -/
theorem decodeEncodeRoundTrip : Obligations.DecodeEncodeRoundTrip := by
  intro i rest h
  cases i with
  | literalS len bytes =>
    obtain ⟨hlen, hrun⟩ := Bool.and_eq_true_iff.1 h
    rw [encode, List.append_assoc, decode_shortHeader _ hlen]
    exact takeRun_append (beq_iff_eq.1 hrun) rest _
  | fillS | wordFillS | sequenceS =>
    rw [encode, List.append_assoc, decode_shortHeader _ h]
    rfl
  | copyForwardS | copyBitReversedS | copyBackwardS =>
    rw [encode, List.append_assoc, decode_shortHeader _ h]
    exact takeAddr_addrBytes _ _ _ _
  | literalL len bytes =>
    obtain ⟨hlen, hrun⟩ := Bool.and_eq_true_iff.1 h
    rw [encode, List.append_assoc, decode_longHeader _ hlen]
    exact takeRun_append (beq_iff_eq.1 hrun) rest _
  | fillL | wordFillL | sequenceL =>
    rw [encode, List.append_assoc, decode_longHeader _ h]
    rfl
  | copyForwardL | copyBitReversedL | copyBackwardL =>
    rw [encode, List.append_assoc, decode_longHeader _ h]
    exact takeAddr_addrBytes _ _ _ _
  | reserved7FC | reserved7FD | reserved7FE | terminator => rfl

/-! ### What the decoder's answer says of the bytes -/

/-- The answer accounts for the bytes read: a well-formed token's encoding in front of what is left over, a header that
ends too soon, or the beginning of a well-formed token's encoding. -/
inductive Reads (bs : List Byte) : DecodeResult → Prop
  | ok {i : Instr} {rest : List Byte} (hwf : i.wf = true) (henc : encode i ++ rest = bs) : Reads bs (.ok i rest)
  | headerCut (h : bs = [] ∨ ∃ b0, bs = [b0] ∧ b0 ≠ 0xFF#8 ∧ b0.extractLsb 7 5 = 7#3) : Reads bs .headerCut
  | payloadCut {i : Instr} {len w : Nat} {more : List Byte} (hwf : i.wf = true) (hlen : i.lengths = some (len, w))
      (hmore : more ≠ []) (henc : encode i = bs ++ more) : Reads bs (.payloadCut len)

/-- `i` is a token of length `len` with this header and this payload. -/
structure Carries (hdr : List Byte) (len : Nat) (payload : List Byte) (i : Instr) : Prop where
  wf : i.wf = true
  enc : encode i = hdr ++ payload
  lengths : ∃ w, i.lengths = some (len, w)

section
variable {hdr : List Byte} {len : Nat}

theorem Carries.reads_ok {p : List Byte} {i : Instr} (h : Carries hdr len p i) (rest : List Byte) :
    Reads (hdr ++ (p ++ rest)) (.ok i rest) :=
  .ok h.wf (by rw [h.enc, List.append_assoc])

theorem Carries.reads_cut {p more : List Byte} {i : Instr} (h : Carries hdr len (p ++ more) i) (hmore : more ≠ []) :
    Reads (hdr ++ p) (.payloadCut len) :=
  have ⟨_, hlen⟩ := h.lengths
  .payloadCut h.wf hlen hmore (by rw [h.enc, List.append_assoc])

theorem takeRun_reads {k : List Byte → Instr} (hk : ∀ run, run.length = len → Carries hdr len run (k run))
    (bs : List Byte) : Reads (hdr ++ bs) (takeRun len bs k) := by
  unfold takeRun
  split
  · rename_i run rest hsplit
    obtain ⟨rfl, hrun⟩ := splitExact_some hsplit
    exact (hk run hrun).reads_ok rest
  · rename_i hsplit
    have hcut : bs.length < len := splitExact_none.1 hsplit
    have hfull : (bs ++ List.replicate (len - bs.length) 0#8).length = len := by
      rw [List.length_append, List.length_replicate]
      omega
    exact (hk _ hfull).reads_cut (by rw [Ne, List.replicate_eq_nil_iff]; omega)

theorem takeByte_reads {k : Byte → Instr} (hk : ∀ v, Carries hdr len [v] (k v)) (bs : List Byte) :
    Reads (hdr ++ bs) (takeByte len bs k) := by
  match bs with
  | [] => exact Carries.reads_cut (p := []) (hk 0#8) (List.cons_ne_nil _ _)
  | v :: rest => exact (hk v).reads_ok rest

theorem takePair_reads {k : Byte → Byte → Instr} (hk : ∀ v0 v1, Carries hdr len [v0, v1] (k v0 v1)) (bs : List Byte) :
    Reads (hdr ++ bs) (takePair len bs k) := by
  match bs with
  | [] => exact Carries.reads_cut (p := []) (hk 0#8 0#8) (List.cons_ne_nil _ _)
  | [v0] => exact Carries.reads_cut (p := [v0]) (hk v0 0#8) (List.cons_ne_nil _ _)
  | v0 :: v1 :: rest => exact (hk v0 v1).reads_ok rest

theorem takeAddr_reads {k : Addr → Instr} (hk : ∀ addr, Carries hdr len (addrBytes addr) (k addr)) (bs : List Byte) :
    Reads (hdr ++ bs) (takeAddr len bs k) :=
  takePair_reads (fun hi lo => addrBytes_append hi lo ▸ hk (hi ++ lo)) bs

end

theorem decodeShort_reads (c : Cmd) {len : Nat} (h : shortLen len = true) (bs : List Byte) :
    Reads (shortHeader c len ++ bs) (decodeShort c len bs) := by
  cases c with
  | literal => exact takeRun_reads (fun _ hrun => ⟨by rw [Instr.wf, h, hrun, beq_self_eq_true]; rfl, rfl, _, rfl⟩) bs
  | fill | sequence => refine takeByte_reads (fun _ => ?_) bs; exact ⟨h, rfl, _, rfl⟩
  | wordFill => refine takePair_reads (fun _ _ => ?_) bs; exact ⟨h, rfl, _, rfl⟩
  | copyForward | copyBitReversed | copyBackward => refine takeAddr_reads (fun _ => ?_) bs; exact ⟨h, rfl, _, rfl⟩

theorem decodeLong_reads (c : Cmd) {len : Nat} (h : longLen len = true) (bs : List Byte) :
    Reads (longHeader c len ++ bs) (decodeLong c len bs) := by
  cases c with
  | literal => exact takeRun_reads (fun _ hrun => ⟨by rw [Instr.wf, h, hrun, beq_self_eq_true]; rfl, rfl, _, rfl⟩) bs
  | fill | sequence => refine takeByte_reads (fun _ => ?_) bs; exact ⟨h, rfl, _, rfl⟩
  | wordFill => refine takePair_reads (fun _ _ => ?_) bs; exact ⟨h, rfl, _, rfl⟩
  | copyForward | copyBitReversed | copyBackward => refine takeAddr_reads (fun _ => ?_) bs; exact ⟨h, rfl, _, rfl⟩

/-- R142, R69: the decoder's answer accounts for every byte string, by the form it begins with. -/
theorem decode_reads (bs : List Byte) : Reads bs (decode bs) := by
  cases head_cases bs with
  | empty => exact .headerCut (.inl rfl)
  | lone hterm hlong =>
    rw [decode_lone hterm hlong]
    exact .headerCut (.inr ⟨_, rfl, hterm, hlong⟩)
  | short c h bs =>
    rw [decode_shortHeader c h]
    exact decodeShort_reads c h bs
  | long c h bs =>
    rw [decode_longHeader c h]
    exact decodeLong_reads c h bs
  | reserved7FC b1 bs | reserved7FD b1 bs | reserved7FE b1 bs | terminator bs => exact .ok rfl rfl

/-- Settles O2: a token comes out of the decoder only in front of what its encoding leaves over. -/
theorem encodeDecodeRoundTrip : Obligations.EncodeDecodeRoundTrip := by
  intro bs i rest h
  cases h ▸ decode_reads bs with
  | ok hwf henc => exact ⟨hwf, henc⟩

/-- Settles O3: the two cut-off answers as `decode_reads` accounts for them, and `decode_lone` for the way back. -/
theorem decodeStopsOnlyWhenBytesEnd : Obligations.DecodeStopsOnlyWhenBytesEnd := by
  refine ⟨fun bs => ⟨fun h => ?_, ?_⟩, fun bs len h => ?_⟩
  · cases h ▸ decode_reads bs with
    | headerCut hcut => exact hcut
  · rintro (rfl | ⟨b0, rfl, hterm, hlong⟩)
    · rfl
    · exact decode_lone hterm hlong
  · cases h ▸ decode_reads bs with
    | payloadCut hwf hlen hmore henc => exact ⟨_, _, _, hwf, hlen, hmore, henc⟩

/-! ### The token at the cursor of DEC -/

/-- R67: the sizes of the tokens. -/
theorem size_le_tokenMax {i : Instr} (h : i.wf = true) : i.size ≤ Config.tokenMax := by
  cases i with
  | literalS len bytes =>
    have := (shortLen_iff len).1 (Bool.and_eq_true_iff.1 h).1
    simp only [Instr.size, Config.tokenMax]
    omega
  | literalL len bytes =>
    have := (longLen_iff len).1 (Bool.and_eq_true_iff.1 h).1
    simp only [Instr.size, Config.tokenMax]
    omega
  | _ => simp only [Instr.size, Config.tokenMax]; omega

/-- R67: the window is long enough for every token. -/
theorem encode_length_le_tokenMax {i : Instr} (h : i.wf = true) : (encode i).length ≤ Config.tokenMax := by
  have hsize := (decode_taken (decodeEncodeRoundTrip i [] h)).size
  rw [List.append_nil, List.length_nil, Nat.add_zero] at hsize
  exact hsize ▸ size_le_tokenMax h

/-- The window begins with the bytes that stand in SRC at the cursor. -/
theorem fetchWindow_of_streamAt {s : State} {bs : List Byte} (h : streamAt s s.dec.sc bs)
    (hlen : bs.length ≤ Config.tokenMax) : ∃ rest, fetchWindow s = bs ++ rest := by
  have hprefix : bs <+: fetchWindow s := by
    rw [List.prefix_iff_getElem?]
    intro k hk
    rw [fetchWindow, fetchRun_get, if_pos (Nat.lt_of_lt_of_le hk hlen), h k hk, List.getElem?_eq_getElem hk]
  obtain ⟨rest, hrest⟩ := hprefix
  exact ⟨rest, hrest.symm⟩

/-- R142: when DEC is to move, the step is the token step at the state with that move taken from the agenda. -/
theorem step_of_decReady {s : State} (h : decReady s) : step s = decStep (popAgenda s) := by
  obtain ⟨hnext, hrun⟩ := h
  simp only [step, hnext, decTurn, popAgenda_dec, hrun, if_true]

theorem decStep_of_decode {s : State} {i : Instr} {rest : List Byte} (h : decode (fetchWindow s) = .ok i rest) :
    decStep s = exec i s := by
  simp only [decStep, h]

/-- Settles O20: the decoder reads the token back from the window, which holds all of its encoding. -/
theorem stepRunsEncodedToken : Obligations.StepRunsEncodedToken := by
  intro s i hready hwf hstream
  obtain ⟨rest, hwindow⟩ : ∃ rest, fetchWindow (popAgenda s) = encode i ++ rest :=
    fetchWindow_of_streamAt hstream (encode_length_le_tokenMax hwf)
  have hdecode : decode (fetchWindow (popAgenda s)) = .ok i rest := by
    rw [hwindow, decodeEncodeRoundTrip i rest hwf]
  rw [step_of_decReady hready, decStep_of_decode hdecode]
  rfl

/-! ### The opcode map -/

/-- Settles O4: closed words, which the decoder is run on. -/
theorem wordsOfTheSpecDecode : Obligations.WordsOfTheSpecDecode := by
  unfold Obligations.WordsOfTheSpecDecode
  decide

/-- If a byte hits just the rows of one mnemonic, as many rows match it as bear that name. -/
theorem hits_count_of_mnemonic {b0 : Byte} {m : String} (h : ∀ r ∈ opcodeRows, r.hits b0 = (r.mnemonic == m)) :
    (opcodeRows.filter fun r => r.hits b0).length = (opcodeRows.filter fun r => r.mnemonic == m).length := by
  rw [List.filter_congr h]

/-- Settles O5: byte 0 begins a header or is one of the four single values, and each hits the row of its mnemonic. -/
theorem opcodeMapPartitionsByteZero : Obligations.OpcodeMapPartitionsByteZero := by
  intro b0
  generalize hbs : [b0, 0#8] = bs
  cases head_cases bs with
  | empty | lone => cases hbs
  | short c hlen bs =>
    obtain ⟨b, e, hrow⟩ := shortHeader_row (c := c) hlen
    obtain ⟨rfl, -⟩ := List.cons.inj (hbs.trans (congrArg (· ++ bs) e))
    rw [hits_count_of_mnemonic hrow]
    cases c <;> decide
  | long c hlen bs =>
    obtain ⟨b, b1, e, hrow⟩ := longHeader_row (c := c) hlen
    obtain ⟨rfl, -⟩ := List.cons.inj (hbs.trans (congrArg (· ++ bs) e))
    rw [hits_count_of_mnemonic hrow]
    cases c <;> decide
  | reserved7FC | reserved7FD | reserved7FE | terminator =>
    obtain ⟨rfl, -⟩ := List.cons.inj hbs
    decide

end Sys2Proof
end

section
/-! PROOFS. BITREV (R80, R82): it is the library's reversal of a bit vector, and its fixed points are the bytes whose low
half is the reversal of their high half. -/

namespace Sys2Proof.Machine

/-! ### The bits -/

/-- R80: the eight bits listed from bit 0 up, read from the most significant one down. -/
theorem bitrev_eq_reverse (x : Byte) : bitrev x = x.reverse := by
  ext i hi
  rw [bitrev, BitVec.getElem_reverse, ← BitVec.getLsbD_eq_getElem, BitVec.getLsbD_ofBoolListBE, BitVec.getMsbD]
  interval_cases i <;> rfl

/-- Settles O9: the bits are those of the reversal; the five examples are evaluated. -/
theorem bitrevReversesBits : Obligations.BitrevReversesBits := by
  refine ⟨fun x i hi => ?_, by decide, by decide, by decide, by decide, by decide⟩
  rw [bitrev_eq_reverse, BitVec.getLsbD_reverse, BitVec.getMsbD_eq_getLsbD, decide_eq_true hi, Bool.true_and]

/-- R82 (1). -/
theorem bitrev_involutive : Function.Involutive bitrev := by
  intro x
  rw [bitrev_eq_reverse, bitrev_eq_reverse, BitVec.reverse_reverse_eq]

/-! ### The fixed points -/

theorem bitrev_append (hi lo : BitVec 4) : bitrev (hi ++ lo) = lo.reverse ++ hi.reverse := by
  rw [bitrev_eq_reverse, BitVec.reverse_append]
  rfl

/-- The byte with high half `hi` that reads the same from both ends. -/
def palindrome (hi : BitVec 4) : Byte := hi ++ hi.reverse

theorem bitrev_palindrome (hi : BitVec 4) : bitrev (palindrome hi) = palindrome hi := by
  rw [palindrome, bitrev_append, BitVec.reverse_reverse_eq]

/-- A fixed point is a palindrome: its low half is the reversal of its high half. -/
theorem bitrev_eq_self_iff (x : Byte) : bitrev x = x ↔ ∃ hi, palindrome hi = x := by
  constructor
  · obtain ⟨hi, lo, rfl⟩ : ∃ hi lo : BitVec 4, hi ++ lo = x :=
      ⟨x.extractLsb' 4 4, x.extractLsb' 0 4,
        (BitVec.extractLsb'_append_extractLsb'_eq_extractLsb' rfl).trans BitVec.extractLsb'_eq_self⟩
    intro h
    have hlo : hi.reverse = lo := by
      simpa only [bitrev_append, BitVec.setWidth_append_eq_right] using congrArg (BitVec.setWidth 4) h
    exact ⟨hi, congrArg (hi ++ ·) hlo⟩
  · rintro ⟨hi, rfl⟩
    exact bitrev_palindrome hi

/-- R82 (3): the rule lists the palindromes by their high half. -/
theorem ofFn_palindrome : List.ofFn (fun i : Fin 16 => palindrome (BitVec.ofFin i)) =
    [0x00#8, 0x18#8, 0x24#8, 0x3C#8, 0x42#8, 0x5A#8, 0x66#8, 0x7E#8, 0x81#8, 0x99#8, 0xA5#8, 0xBD#8, 0xC3#8,
      0xDB#8, 0xE7#8, 0xFF#8] := by decide

/-- Settles O10: the fixed points are the palindromes, one for each high half. -/
theorem bitrevInvolution : Obligations.BitrevInvolution := by
  refine ⟨bitrev_involutive, bitrev_involutive.bijective, fun x => ?_⟩
  rw [← ofFn_palindrome, List.mem_ofFn, bitrev_eq_self_iff]
  constructor
  · rintro ⟨⟨i⟩, rfl⟩
    exact ⟨i, rfl⟩
  · rintro ⟨i, rfl⟩
    exact ⟨BitVec.ofFin i, rfl⟩

end Sys2Proof.Machine
end

section
/-! PROOFS. The header codec HDR (R85 to R90): `HdrEncode` chooses the form by the length, and each form is read back. -/

namespace Sys2Proof

open Sys2Proof.Machine Sys2Proof.Laws

/-! ### The form that `HdrEncode` chooses -/

theorem hdrEncode_of_le (c : Cmd) {len : Nat} (h : len ≤ 32) : hdrEncode c len = shortHeader c len := if_pos h

theorem hdrEncode_of_lt (c : Cmd) {len : Nat} (h : 32 < len) : hdrEncode c len = longHeader c len :=
  if_neg (Nat.not_le_of_lt h)

/-- Settles O6: up to 32 the header is the short one, above it the long one. -/
theorem headerRoundTrip : Obligations.HeaderRoundTrip := by
  intro c len h1 h1024
  rcases Nat.lt_or_ge 32 len with hlong | hshort
  · exact .inr ⟨_, _, hdrEncode_of_lt c hlong, hlong, (hdrDecode_long ((longLen_iff len).2 ⟨h1, h1024⟩) rfl).2⟩
  · exact .inl ⟨_, hdrEncode_of_le c hshort, hshort,
      fun b1 => (hdrDecode_short ((shortLen_iff len).2 ⟨h1, hshort⟩) rfl b1).2⟩

/-! ### The first byte of a header -/

/-- R61, R90: the first byte of a short header is below every long header's. -/
theorem shortHeader_toNat_lt {c : Cmd} {len : Nat} {b0 : Byte} (h : shortLen len = true)
    (e : shortHeader c len = [b0]) : b0.toNat < 0xE0 :=
  (isShort_iff b0).1 (hdrDecode_short h e 0#8).1

/-- R62, R90: the type of a command leaves out the four greatest first bytes. -/
theorem longHeader_toNat_le {c : Cmd} {len : Nat} {b0 b1 : Byte} (h : longLen len = true)
    (e : longHeader c len = [b0, b1]) : b0.toNat ≤ 0xFB := by
  obtain ⟨e0, -⟩ := (longHeader_eq_iff c h b0 b1).1 e
  obtain ⟨-, hlen⟩ := (longLen_iff len).1 h
  have hcode := c.code_lt
  omega

/-- Settles O7, by the form. -/
theorem headerNeverReservedOrTerminator : Obligations.HeaderNeverReservedOrTerminator := by
  intro c len h1 h1024
  rcases Nat.lt_or_ge 32 len with hlong | hshort
  · exact ⟨_, _, hdrEncode_of_lt c hlong, longHeader_toNat_le ((longLen_iff len).2 ⟨h1, h1024⟩) rfl⟩
  · have hlt := shortHeader_toNat_lt (c := c) ((shortLen_iff len).2 ⟨h1, hshort⟩) rfl
    exact ⟨_, _, hdrEncode_of_le c hshort, by omega⟩

/-- Settles O8: a length of 32 or less is one of the long form too, and `hdrDecode_long` reads that form at every length
it can carry. -/
theorem nonCanonicalHeaderDecodes : Obligations.NonCanonicalHeaderDecodes := by
  intro c len h1 h32
  have hlong : longLen len = true := (longLen_iff len).2 ⟨h1, by omega⟩
  have hshort : shortLen len = true := (shortLen_iff len).2 ⟨h1, h32⟩
  exact ⟨_, _, _, rfl, (hdrDecode_long hlong rfl).2, hdrEncode_of_le c h32, (hdrDecode_short hshort rfl _).2⟩

end Sys2Proof
end

section
/-! PROOFS. ENC's strategies, selector and scan (R103 to R113): what each measures and which match is taken. -/

namespace Sys2Proof.Machine

/-! ### The strategies -/

/-- The measuring loop answers the largest length whose guard holds so far. -/
theorem countWhile_isLongest {p : Nat → Bool} {ok : Nat → Prop} {win : Nat} (h : ∀ j, p j = true ↔ ok j) :
    isLongest ok win (countWhile p win 0) := by
  obtain ⟨-, hle, hall, hstop⟩ := countWhile_spec p win 0
  rw [Nat.zero_add] at hle hstop
  refine ⟨hle, fun j hj => (h j).1 (hall j (Nat.zero_le j) hj), fun hlt hok => ?_⟩
  rw [← h, hstop hlt] at hok
  cases hok

section
variable (g : Nat → Byte) (n pos2 pos3 : Nat)

theorem byteRun_isLongest : isLongest (fun j => pos2 + j < n ∧ g (pos2 + j) = g pos2) 1024 (byteRun g n pos2) :=
  countWhile_isLongest fun j => by simp

/-- R106: where no whole pair exists the condition fails at once. -/
theorem wordRun_isLongest :
    isLongest (fun j => pos2 + 2 * j + 1 < n ∧ g (pos2 + 2 * j) = g pos2 ∧ g (pos2 + 2 * j + 1) = g (pos2 + 1)) 1024
      (wordRun g n pos2) := by
  unfold wordRun
  split
  · exact ⟨Nat.zero_le _, fun j hj => absurd hj (Nat.not_lt_zero j), fun _ hok => by omega⟩
  · exact countWhile_isLongest fun j => by simp [and_assoc]

/-- R107: counting up in bytes is counting up modulo 256. -/
theorem arithRun_isLongest :
    isLongest (fun j => pos2 + j < n ∧ (g (pos2 + j)).toNat = ((g pos2).toNat + j) % 256) 1024 (arithRun g n pos2) :=
  countWhile_isLongest fun j => by simp [BitVec.toNat_eq]

theorem fwdMatch_isLongest :
    isLongest (fun j => pos3 + j < pos2 ∧ pos2 + j < n ∧ g (pos3 + j) = g (pos2 + j)) 1024 (fwdMatch g n pos2 pos3) :=
  countWhile_isLongest fun j => by simp [and_assoc]

theorem revMatch_isLongest :
    isLongest (fun j => pos3 + j < pos2 ∧ pos2 + j < n ∧ g (pos3 + j) = bitrev (g (pos2 + j))) 1024
      (revMatch g n pos2 pos3) :=
  countWhile_isLongest fun j => by simp [and_assoc]

theorem bwdMatch_isLongest :
    isLongest (fun j => (0 : Int) ≤ (pos3 : Int) - j ∧ pos2 + j < n ∧ g (pos3 - j) = g (pos2 + j)) 1024
      (bwdMatch g n pos2 pos3) :=
  countWhile_isLongest fun j => by simp [and_assoc]

end

/-- Settles O46. -/
theorem runMatchersMeasureLongest : Obligations.RunMatchersMeasureLongest :=
  fun g n pos2 => ⟨byteRun_isLongest g n pos2, wordRun_isLongest g n pos2, arithRun_isLongest g n pos2⟩

/-- Settles O47. -/
theorem copyMatchersMeasureLongest : Obligations.CopyMatchersMeasureLongest :=
  fun g n pos2 pos3 _ =>
    ⟨fwdMatch_isLongest g n pos2 pos3, revMatch_isLongest g n pos2 pos3, bwdMatch_isLongest g n pos2 pos3⟩

/-! ### The back-reference search -/

section
variable {g : Nat → Byte} {n pos2 pos3 : Nat}

theorem backMatch_eq_none_iff : backMatch g n pos2 pos3 = none ↔
    fwdMatch g n pos2 pos3 < 5 ∧ revMatch g n pos2 pos3 < 5 ∧ bwdMatch g n pos2 pos3 < 5 := by
  simp [backMatch, Config.minCopy, ite_eq_iff]

/-- R108: the search tries the candidates in increasing order. -/
theorem backSearch_eq_findSome? (fuel : Nat) :
    backSearch g n pos2 fuel pos3 = (List.range' pos3 fuel).findSome? (backMatch g n pos2) := by
  induction fuel generalizing pos3 with
  | zero => rfl
  | succ fuel ih =>
    rw [backSearch, ih, List.range'_succ, List.findSome?_cons]
    cases backMatch g n pos2 pos3 <;> rfl

theorem backSearch_eq_none_iff : backSearch g n pos2 pos2 0 = none ↔
    ∀ q, q < pos2 → fwdMatch g n pos2 q < 5 ∧ revMatch g n pos2 q < 5 ∧ bwdMatch g n pos2 q < 5 := by
  simp [backSearch_eq_findSome?, List.mem_range'_1, backMatch_eq_none_iff]

/-- R108: the smallest candidate that qualifies is taken. -/
theorem backSearch_of_first {m : Match} (h : backMatch g n pos2 pos3 = some m) (hlt : pos3 < pos2)
    (hfirst : ∀ q, q < pos3 → fwdMatch g n pos2 q < 5 ∧ revMatch g n pos2 q < 5 ∧ bwdMatch g n pos2 q < 5) :
    backSearch g n pos2 pos2 0 = some m := by
  have hsplit : List.range' 0 pos2 = List.range' 0 pos3 ++ pos3 :: List.range' (pos3 + 1) (pos2 - pos3 - 1) := by
    rw [← List.range'_succ, List.range'_eq_append_iff]
    exact ⟨pos3, Nat.le_of_lt hlt, rfl, by congr 1 <;> omega⟩
  rw [backSearch_eq_findSome?, List.findSome?_eq_some_iff]
  refine ⟨_, _, _, hsplit, h, fun q hq => backMatch_eq_none_iff.2 (hfirst q ?_)⟩
  have := List.mem_range'_1.1 hq
  omega

/-! ### The selector -/

theorem select_of_byteRun (h : 3 ≤ byteRun g n pos2) :
    select g n pos2 = some (.fill (g pos2) (byteRun g n pos2)) := if_pos h

theorem select_of_wordRun (hb : byteRun g n pos2 < 3) (h : 3 ≤ wordRun g n pos2) :
    select g n pos2 = some (.wordFill (g pos2) (g (pos2 + 1)) (wordRun g n pos2)) :=
  (if_neg (Nat.not_le_of_lt hb)).trans (if_pos h)

theorem select_of_arithRun (hb : byteRun g n pos2 < 3) (hw : wordRun g n pos2 < 3) (h : 4 ≤ arithRun g n pos2) :
    select g n pos2 = some (.sequence (g pos2) (arithRun g n pos2)) :=
  (if_neg (Nat.not_le_of_lt hb)).trans ((if_neg (Nat.not_le_of_lt hw)).trans (if_pos h))

/-- R104: where no run qualifies the back-references decide. -/
theorem select_of_no_run (hb : byteRun g n pos2 < 3) (hw : wordRun g n pos2 < 3) (ha : arithRun g n pos2 < 4) :
    select g n pos2 = backSearch g n pos2 pos2 0 :=
  (if_neg (Nat.not_le_of_lt hb)).trans ((if_neg (Nat.not_le_of_lt hw)).trans (if_neg (Nat.not_le_of_lt ha)))

theorem backMatch_of_fwdMatch (h : 5 ≤ fwdMatch g n pos2 pos3) :
    backMatch g n pos2 pos3 = some (.copyForward pos3 (fwdMatch g n pos2 pos3)) := if_pos h

theorem backMatch_of_revMatch (hf : fwdMatch g n pos2 pos3 < 5) (h : 5 ≤ revMatch g n pos2 pos3) :
    backMatch g n pos2 pos3 = some (.copyBitReversed pos3 (revMatch g n pos2 pos3)) :=
  (if_neg (Nat.not_le_of_lt hf)).trans (if_pos h)

theorem backMatch_of_bwdMatch (hf : fwdMatch g n pos2 pos3 < 5) (hr : revMatch g n pos2 pos3 < 5)
    (h : 5 ≤ bwdMatch g n pos2 pos3) :
    backMatch g n pos2 pos3 = some (.copyBackward pos3 (bwdMatch g n pos2 pos3)) :=
  (if_neg (Nat.not_le_of_lt hf)).trans ((if_neg (Nat.not_le_of_lt hr)).trans (if_pos h))

end

/-- Settles O48: each strategy's branch, and the first candidate of the search. -/
theorem selectorTakesFirstFit : Obligations.SelectorTakesFirstFit := by
  intro g n pos2
  refine ⟨select_of_byteRun, select_of_wordRun, select_of_arithRun, fun hb hw ha => ?_⟩
  rw [select_of_no_run hb hw ha]
  refine ⟨fun pos3 hlt hfirst => ⟨fun h => ?_, fun hf h => ?_, fun hf hr h => ?_⟩, backSearch_eq_none_iff⟩
  · exact backSearch_of_first (backMatch_of_fwdMatch h) hlt hfirst
  · exact backSearch_of_first (backMatch_of_revMatch hf h) hlt hfirst
  · exact backSearch_of_first (backMatch_of_bwdMatch hf hr h) hlt hfirst

/-! ### What a selected match is -/

/-- R104: the matches the selector can answer at `pos2`, each with the length its strategy measured. -/
inductive Selected (g : Nat → Byte) (n pos2 : Nat) : Match → Prop
  | fill (h : 3 ≤ byteRun g n pos2) : Selected g n pos2 (.fill (g pos2) (byteRun g n pos2))
  | wordFill (h : 3 ≤ wordRun g n pos2) :
      Selected g n pos2 (.wordFill (g pos2) (g (pos2 + 1)) (wordRun g n pos2))
  | sequence (h : 4 ≤ arithRun g n pos2) : Selected g n pos2 (.sequence (g pos2) (arithRun g n pos2))
  | copyForward {pos3 : Nat} (hlt : pos3 < pos2) (h : 5 ≤ fwdMatch g n pos2 pos3) :
      Selected g n pos2 (.copyForward pos3 (fwdMatch g n pos2 pos3))
  | copyBitReversed {pos3 : Nat} (hlt : pos3 < pos2) (h : 5 ≤ revMatch g n pos2 pos3) :
      Selected g n pos2 (.copyBitReversed pos3 (revMatch g n pos2 pos3))
  | copyBackward {pos3 : Nat} (hlt : pos3 < pos2) (h : 5 ≤ bwdMatch g n pos2 pos3) :
      Selected g n pos2 (.copyBackward pos3 (bwdMatch g n pos2 pos3))

theorem backMatch_selected {g : Nat → Byte} {n pos2 pos3 : Nat} {m : Match} (hlt : pos3 < pos2)
    (h : backMatch g n pos2 pos3 = some m) : Selected g n pos2 m := by
  unfold backMatch at h
  split at h
  case isTrue hf => exact Option.some.inj h ▸ .copyForward hlt hf
  case isFalse =>
    split at h
    case isTrue hr => exact Option.some.inj h ▸ .copyBitReversed hlt hr
    case isFalse =>
      split at h
      case isTrue hb => exact Option.some.inj h ▸ .copyBackward hlt hb
      case isFalse => cases h

/-- The selector's answer is one of the strategies' matches; a back-reference points before `pos2`. -/
theorem select_selected {g : Nat → Byte} {n pos2 : Nat} {m : Match} (h : select g n pos2 = some m) :
    Selected g n pos2 m := by
  unfold select at h
  split at h
  case isTrue hb => exact Option.some.inj h ▸ .fill hb
  case isFalse =>
    split at h
    case isTrue hw => exact Option.some.inj h ▸ .wordFill hw
    case isFalse =>
      split at h
      case isTrue ha => exact Option.some.inj h ▸ .sequence ha
      case isFalse =>
        rw [backSearch_eq_findSome?] at h
        obtain ⟨q, hq, hm⟩ := List.exists_of_findSome?_eq_some h
        exact backMatch_selected (by have := List.mem_range'_1.1 hq; omega) hm

/-! ### The outer scan -/

/-- R103: with `fuel` candidates left the scan ends at the first match, or where input or candidates end. -/
theorem scan_earliest (g : Nat → Byte) {n pos : Nat} (fuel : Nat) (hpos : pos ≤ n) :
    ∃ p, (∀ q, pos ≤ q → q < p → select g n q = none) ∧
      ((∃ m, scan g n fuel pos = (p, some m) ∧ pos ≤ p ∧ p < n ∧ p < pos + fuel ∧ select g n p = some m) ∨
        (scan g n fuel pos = (p, none) ∧ p = min n (pos + fuel))) := by
  induction fuel generalizing pos with
  | zero => exact ⟨pos, fun q h h' => by omega, .inr ⟨rfl, by omega⟩⟩
  | succ fuel ih =>
    rw [scan]
    by_cases hlt : pos < n
    · rw [if_pos hlt]
      cases hsel : select g n pos with
      | some m => exact ⟨pos, fun q h h' => by omega, .inl ⟨m, rfl, Nat.le_refl _, hlt, by omega, hsel⟩⟩
      | none =>
        obtain ⟨p, hnone, hend⟩ := ih hlt
        refine ⟨p, fun q hq hqp => ?_, hend.imp ?_ ?_⟩
        · rcases Nat.eq_or_lt_of_le hq with rfl | hq
          · exact hsel
          · exact hnone q hq hqp
        · rintro ⟨m, hscan, hle, hin, hwin, hm⟩
          exact ⟨m, hscan, by omega, hin, by omega, hm⟩
        · rintro ⟨hscan, hp⟩
          exact ⟨hscan, by omega⟩
    · rw [if_neg hlt]
      exact ⟨pos, fun q h h' => by omega, .inr ⟨rfl, by omega⟩⟩

/-- Settles O49: the window is 1024 candidates. -/
theorem scanFindsEarliestMatch : Obligations.ScanFindsEarliestMatch :=
  fun g _ _ hpos => scan_earliest g 1024 hpos

end Sys2Proof.Machine
end

section
/-! PROOFS. The tokens ENC emits (R115 to R124, R134): well formed, with canonical headers, and read back by the
decoder. -/

namespace Sys2Proof.Machine

/-- These bytes are the encoding of the well-formed token `i`. -/
structure EncodesAs (bs : List Byte) (i : Instr) : Prop where
  wf : i.wf = true
  bytes : bs = encode i

/-! ### The header's form -/

/-- R115: `HdrEncode` takes the short form for the lengths whose token is the short one. -/
theorem hdrEncode_encodesAs {c : Cmd} {len : Nat} {payload : List Byte} {iS iL : Instr} (hlen : 1 ≤ len)
    (hmax : len ≤ 1024) (hS : shortLen len = true → EncodesAs (shortHeader c len ++ payload) iS)
    (hL : longLen len = true → EncodesAs (longHeader c len ++ payload) iL) :
    EncodesAs (hdrEncode c len ++ payload) (if len ≤ Config.shortMax then iS else iL) := by
  rcases Nat.lt_or_ge Config.shortMax len with hlong | hshort
  · rw [if_neg (Nat.not_le_of_lt hlong), hdrEncode_of_lt c hlong]
    exact hL ((Laws.longLen_iff len).2 ⟨hlen, hmax⟩)
  · rw [if_pos hshort, hdrEncode_of_le c hshort]
    exact hS ((Laws.shortLen_iff len).2 ⟨hlen, hshort⟩)

/-- R116: an input index below 65536 is sent as the bytes of the address field. -/
theorem posBytes_eq {pos3 : Nat} (h : pos3 < 65536) : posBytes pos3 = addrBytes (BitVec.ofNat 16 pos3) := by
  have hhi : BitVec.ofNat 8 (pos3 / 256) = (BitVec.ofNat 16 pos3).extractLsb 15 8 := by
    rw [BitVec.toNat_eq, BitVec.extractLsb_toNat, Nat.shiftRight_eq_div_pow, BitVec.toNat_ofNat, BitVec.toNat_ofNat]
    omega
  have hlo : BitVec.ofNat 8 (pos3 % 256) = (BitVec.ofNat 16 pos3).extractLsb 7 0 := by
    rw [BitVec.toNat_eq, BitVec.extractLsb_toNat, Nat.shiftRight_eq_div_pow, BitVec.toNat_ofNat, BitVec.toNat_ofNat]
    omega
  rw [posBytes, addrBytes, hhi, hlo]

/-! ### Matches -/

/-- R118 to R123: what a selected match emits is the encoding of its token. -/
theorem Selected.encodesAs {g : Nat → Byte} {n pos2 : Nat} {m : Match} (h : Selected g n pos2 m)
    (hpos : pos2 ≤ 65536) : EncodesAs m.bytes m.token := by
  cases h with
  | fill hmin =>
    obtain ⟨hmax, -, -⟩ := byteRun_isLongest g n pos2
    exact hdrEncode_encodesAs (by omega) hmax (⟨·, rfl⟩) (⟨·, rfl⟩)
  | wordFill hmin =>
    obtain ⟨hmax, -, -⟩ := wordRun_isLongest g n pos2
    exact hdrEncode_encodesAs (by omega) hmax (⟨·, rfl⟩) (⟨·, rfl⟩)
  | sequence hmin =>
    obtain ⟨hmax, -, -⟩ := arithRun_isLongest g n pos2
    exact hdrEncode_encodesAs (by omega) hmax (⟨·, rfl⟩) (⟨·, rfl⟩)
  | @copyForward pos3 hlt hmin =>
    obtain ⟨hmax, -, -⟩ := fwdMatch_isLongest g n pos2 pos3
    rw [Match.bytes, posBytes_eq (by omega)]
    exact hdrEncode_encodesAs (by omega) hmax (⟨·, rfl⟩) (⟨·, rfl⟩)
  | @copyBitReversed pos3 hlt hmin =>
    obtain ⟨hmax, -, -⟩ := revMatch_isLongest g n pos2 pos3
    rw [Match.bytes, posBytes_eq (by omega)]
    exact hdrEncode_encodesAs (by omega) hmax (⟨·, rfl⟩) (⟨·, rfl⟩)
  | @copyBackward pos3 hlt hmin =>
    obtain ⟨hmax, -, -⟩ := bwdMatch_isLongest g n pos2 pos3
    rw [Match.bytes, posBytes_eq (by omega)]
    exact hdrEncode_encodesAs (by omega) hmax (⟨·, rfl⟩) (⟨·, rfl⟩)

/-- Settles O50: the encoding by `Selected.encodesAs`, the bytes covered by `select_saves`. -/
theorem selectedTokenIsEncoded : Obligations.SelectedTokenIsEncoded := by
  intro g n pos2 m rest hpos hn hsel
  obtain ⟨hwf, hbytes⟩ := (select_selected hsel).encodesAs (by omega)
  obtain ⟨hlong, -, hin⟩ := select_saves hsel
  exact ⟨hwf, hbytes, by rw [hbytes, decodeEncodeRoundTrip _ _ hwf], hlong, hin⟩

/-! ### Literals -/

/-- The Literal of `k` bytes in canonical form: the short header iff `k` is at most 32 (R115). -/
def literalToken (k : Nat) (bytes : List Byte) : Instr :=
  if k ≤ Config.shortMax then .literalS k bytes else .literalL k bytes

theorem literalToken_isLiteral (k : Nat) (bytes : List Byte) : isLiteral (literalToken k bytes) k bytes := by
  unfold literalToken
  split
  · exact .inl rfl
  · exact .inr rfl

theorem literalToken_short_iff (k : Nat) (bytes : List Byte) :
    literalToken k bytes = .literalS k bytes ↔ k ≤ 32 := by
  rw [literalToken, ite_eq_left_iff]
  simp [Config.shortMax]

theorem inputRun_get (g : Nat → Byte) {k j : Nat} (a : Nat) (h : j < k) : (inputRun g k a)[j]? = some (g (a + j)) := by
  induction k generalizing a j with
  | zero => omega
  | succ k ih =>
    cases j with
    | zero => rfl
    | succ j => rw [inputRun, List.getElem?_cons_succ, ih (a + 1) (by omega), Nat.add_right_comm, Nat.add_assoc]

theorem literalBytes_self (g : Nat → Byte) (pos : Nat) : literalBytes g pos pos = [] := if_neg (Nat.lt_irrefl pos)

/-- R117: a pending run of 1 to 1024 bytes is emitted as its Literal. -/
theorem literalBytes_encodesAs (g : Nat → Byte) (pos : Nat) {k : Nat} (hk : 1 ≤ k) (hmax : k ≤ 1024) :
    EncodesAs (literalBytes g pos (pos + k)) (literalToken k (inputRun g k pos)) := by
  have hrun : ((inputRun g k pos).length == k) = true := beq_iff_eq.2 (inputRun_length g k pos)
  rw [literalBytes, if_pos (by omega), Nat.add_sub_cancel_left]
  exact hdrEncode_encodesAs hk hmax (fun h => ⟨Bool.and_eq_true_iff.2 ⟨h, hrun⟩, rfl⟩)
    fun h => ⟨Bool.and_eq_true_iff.2 ⟨h, hrun⟩, rfl⟩

/-- Settles O51. -/
theorem pendingLiteralIsEncoded : Obligations.PendingLiteralIsEncoded := by
  intro g pos k hmax
  refine ⟨fun h => by subst h; exact literalBytes_self g pos, fun hk => ?_⟩
  obtain ⟨hwf, hbytes⟩ := literalBytes_encodesAs g pos hk hmax
  exact ⟨_, _, literalToken_isLiteral k _, hwf, hbytes, literalToken_short_iff k _, fun j hj => inputRun_get g pos hj⟩

end Sys2Proof.Machine
end

section
/-! PROOFS. ENC's run (R100, R102, R127 to R129, R133, R135): its two kinds of step, and the stream they leave in CS. -/

namespace Sys2Proof.Machine

/-! ### The iteration -/

/-- R102, R103: the iteration, by where the scan of 1024 positions ends. -/
theorem iteration_of_scan {g : Nat → Byte} {n pos p : Nat} {m : Option Match} (h : scan g n 1024 pos = (p, m)) :
    iteration g n pos = (p + matchConsumed m, literalBytes g pos p ++ matchBytes m) := by
  have h' : scan g n Config.scanWin pos = (p, m) := h
  rw [iteration, h']

/-- R135: every iteration inside the input moves the cursor. -/
theorem iteration_progress {g : Nat → Byte} {n pos : Nat} (h : pos < n) : pos < (iteration g n pos).1 := by
  rcases iteration_cases (g := g) h with ⟨p, m, hle, hsaves, he⟩ | ⟨p, -, -, hp, he⟩ <;> rw [he]
  · have := hsaves.long
    dsimp only
    omega
  · dsimp only
    omega

/-- R129: past the last byte the stream is the terminator. -/
theorem streamFrom_of_le {g : Nat → Byte} {n pos : Nat} (h : n ≤ pos) (fuel : Nat) :
    streamFrom g n fuel pos = [Config.term] := by
  cases fuel with
  | zero => rfl
  | succ fuel => exact if_neg (Nat.not_lt.2 h)

/-- R127: inside the input the stream is an iteration's bytes and the stream from where that iteration ends. -/
theorem streamFrom_of_lt {g : Nat → Byte} {n pos : Nat} (h : pos < n) (fuel : Nat) :
    streamFrom g n (fuel + 1) pos = (iteration g n pos).2 ++ streamFrom g n fuel (iteration g n pos).1 := if_pos h

/-! ### The size of the stream -/

/-- R133: the bound that `iteration_amortized` keeps, summed over the iterations left. -/
theorem streamFrom_length_le (g : Nat → Byte) {n pos : Nat} (fuel : Nat) (hpos : pos ≤ n) :
    pos + pos / 36 + (if pos = n then 2 else 0) + (streamFrom g n fuel pos).length ≤ Config.csBound n := by
  have hterm : pos + pos / 36 + (if pos = n then 2 else 0) + 1 ≤ Config.csBound n := by
    unfold Config.csBound
    split <;> omega
  induction fuel generalizing pos with
  | zero => exact hterm
  | succ fuel ih =>
    rcases Nat.lt_or_ge pos n with hlt | hge
    · obtain ⟨hin, hbytes⟩ := iteration_amortized (g := g) hlt
      have hrest := ih hin (by unfold Config.csBound; split <;> omega)
      rw [streamFrom_of_lt hlt, List.length_append, if_neg (Nat.ne_of_lt hlt)]
      omega
    · rw [streamFrom_of_le hge]
      exact hterm

/-- Settles O56: the whole stream is the one from position 0. -/
theorem compressedSizeBound : Obligations.CompressedSizeBound := by
  intro g n hn _
  have hbound := streamFrom_length_le g n (Nat.zero_le n)
  rw [if_neg (by omega)] at hbound
  exact Nat.le_of_add_left_le hbound

/-! ### The two steps of ENC -/

/-- `m'` is `m` with the bytes `bs` written from index `a` on. -/
def Appends (m : Memory) (a : Nat) (bs : List Byte) (m' : Memory) : Prop :=
  ∀ x, Memory.read? m' x = if a ≤ x ∧ x < a + bs.length then bs[x - a]? else Memory.read? m x

theorem Appends.trans {m m' m'' : Memory} {a : Nat} {bs bs' : List Byte} (h : Appends m a bs m')
    (h' : Appends m' (a + bs.length) bs' m'') : Appends m a (bs ++ bs') m'' := by
  intro x
  rw [h' x, h x, List.length_append]
  by_cases hbelow : x < a + bs.length
  · rw [if_neg (by omega)]
    by_cases hin : a ≤ x
    · rw [if_pos ⟨hin, hbelow⟩, if_pos (by omega), List.getElem?_append_left (by omega)]
    · rw [if_neg (by omega), if_neg (by omega)]
  · by_cases hin : x < a + bs.length + bs'.length
    · rw [if_pos (by omega), if_pos (by omega), List.getElem?_append_right (by omega), Nat.sub_sub]
    · rw [if_neg (by omega), if_neg (by omega), if_neg (by omega)]

theorem Appends.read_of_zero {m m' : Memory} {bs : List Byte} (h : Appends m 0 bs m') (x : Nat) :
    Memory.read? m' x = if x < bs.length then bs[x]? else Memory.read? m x :=
  (h x).trans (if_congr (by omega) rfl rfl)

theorem Appends.read_of_singleton {m m' : Memory} {a : Nat} {b : Byte} (h : Appends m a [b] m') (x : Nat) :
    Memory.read? m' x = if x = a then some b else Memory.read? m x := by
  rw [h x, List.length_singleton]
  by_cases hx : x = a
  · subst hx
    rw [if_pos (by omega), if_pos rfl, Nat.sub_self]
    rfl
  · rw [if_neg (by omega), if_neg hx]

/-- R128: when ENC is to move, the step is its turn at the state with that move taken from the agenda. -/
theorem step_of_encReady {s : State} (h : encReady s) : step s = encTurn (popAgenda s) := by
  simp only [step, h.1]

/-- R102, R128: the step inside the input. -/
theorem step_iteration {s : State} {pos : Nat} {bs : List Byte} (h : encReady s) (hpos : s.enc.pos < inLength s)
    (hit : iteration (inByte s) (inLength s) s.enc.pos = (pos, bs)) :
    ∃ cs, step s = .next (withEnc { s.enc with pos := pos, wp := s.enc.wp + bs.length } cs (popAgenda s)) ∧
      Appends s.cs s.enc.wp bs cs := by
  have hit' : iteration (inByte (popAgenda s)) (inLength (popAgenda s)) (popAgenda s).enc.pos = (pos, bs) := hit
  have hturn : encTurn (popAgenda s) = .next (encIteration (popAgenda s)) := (if_pos h.2).trans (if_pos hpos)
  rw [step_of_encReady h, hturn, encIteration_eq, hit']
  exact ⟨_, rfl, (emitAll_spec bs (popAgenda s)).2⟩

/-- R129: the step at the end of the input. -/
theorem step_terminator {s : State} (h : encReady s) (hpos : inLength s ≤ s.enc.pos) :
    ∃ cs, step s = .next (withEnc { s.enc with status := .done, wp := s.enc.wp + 1 } cs (popAgenda s)) ∧
      Appends s.cs s.enc.wp [Config.term] cs := by
  have hturn : encTurn (popAgenda s) = .next (encFinish (popAgenda s)) :=
    (if_pos h.2).trans (if_neg (Nat.not_lt.2 hpos))
  rw [step_of_encReady h, hturn]
  exact ⟨_, rfl, (emitAll_spec [Config.term] (popAgenda s)).2⟩

/-- Settles O52: the step is `step_iteration`, which ends where `iteration_progress` and `iteration_amortized` say. -/
theorem encIterationEffect : Obligations.EncIterationEffect := by
  intro s h hpos
  obtain ⟨pos, bs, hit⟩ : ∃ pos bs, iteration (inByte s) (inLength s) s.enc.pos = (pos, bs) := ⟨_, _, rfl⟩
  obtain ⟨cs, hstep, hcs⟩ := step_iteration h hpos hit
  have hmove := iteration_progress (g := inByte s) hpos
  obtain ⟨hin, -⟩ := iteration_amortized (g := inByte s) hpos
  rw [hit] at hmove hin
  refine ⟨_, bs, hstep, hit, fun p m hscan => ?_, hmove, hin, rfl, hcs⟩
  obtain ⟨rfl, rfl⟩ := Prod.mk.inj (hit.symm.trans (iteration_of_scan hscan))
  exact ⟨rfl, rfl⟩

/-- Settles O53: the one byte appended is the terminator. -/
theorem encTerminatorEffect : Obligations.EncTerminatorEffect := by
  intro s h hpos
  obtain ⟨cs, hstep, hcs⟩ := step_terminator h hpos
  exact ⟨_, hstep, rfl, hcs.read_of_singleton⟩

/-! ### The whole run -/

/-- A run that begins with a given step. -/
theorem run_succ {s t : State} (h : step s = .next t) (k : Nat) :
    Host.Core.run core (k + 1) s = Host.Core.run core k t := by
  have h' : core.step s = .next t := h
  simp only [Host.Core.run, h']

theorem popAgenda_of_nil {s : State} (h : s.agenda = []) : popAgenda s = s := by
  cases s
  subst h
  rfl

/-- ENC is RUNNING and nothing else will move. -/
structure EncAlone (s : State) : Prop where
  agenda : s.agenda = []
  dec_quiet : s.dec.status ≠ .running
  running : s.enc.status = .running

theorem EncAlone.ready {s : State} (h : EncAlone s) : encReady s :=
  ⟨by simp [nextEvent, h.agenda, h.dec_quiet, h.running], h.running⟩

/-- R129: within `steps` steps the run ends in DONE at the end of the input, with `stream` appended to CS, and nothing
else changed. -/
def EncEmits (s : State) (steps : Nat) (stream : List Byte) : Prop :=
  ∃ k cs, k ≤ steps ∧
    Host.Core.run core k s = .next (withEnc
      { s.enc with status := .done, pos := inLength s, wp := s.enc.wp + stream.length } cs s) ∧
    Appends s.cs s.enc.wp stream cs

/-- R129: at the end of the input the terminator is all that is left. -/
theorem EncAlone.emits_terminator {s : State} (h : EncAlone s) (hpos : s.enc.pos = inLength s) (steps : Nat) :
    EncEmits s (steps + 1) [Config.term] := by
  obtain ⟨cs, hstep, hcs⟩ := step_terminator h.ready (Nat.le_of_eq hpos.symm)
  refine ⟨1, cs, Nat.le_add_left 1 steps, ?_, hcs⟩
  rw [run_succ hstep, popAgenda_of_nil h.agenda, ← hpos]
  rfl

/-- R127: a step of ENC that appends `bs`, before a run that appends `stream`. -/
theorem EncEmits.cons {s : State} {steps pos : Nat} {bs stream : List Byte} {cs : Memory}
    (hstep : step s = .next (withEnc { s.enc with pos := pos, wp := s.enc.wp + bs.length } cs s))
    (hcs : Appends s.cs s.enc.wp bs cs)
    (h : EncEmits (withEnc { s.enc with pos := pos, wp := s.enc.wp + bs.length } cs s) steps stream) :
    EncEmits s (steps + 1) (bs ++ stream) := by
  obtain ⟨k, cs', hk, hrun, hcs'⟩ := h
  refine ⟨k + 1, cs', Nat.succ_le_succ hk, ?_, hcs.trans hcs'⟩
  rw [run_succ hstep, hrun, List.length_append, ← Nat.add_assoc]
  rfl

/-- R128, R135: with as many iterations as input bytes are left, the run appends the stream from `enc.pos` on. -/
theorem EncAlone.emits_streamFrom {s : State} (h : EncAlone s) {fuel : Nat} (hpos : s.enc.pos ≤ inLength s)
    (hfuel : inLength s ≤ s.enc.pos + fuel) :
    EncEmits s (fuel + 1) (streamFrom (inByte s) (inLength s) fuel s.enc.pos) := by
  induction fuel generalizing s with
  | zero => exact h.emits_terminator (Nat.le_antisymm hpos hfuel) 0
  | succ fuel ih =>
    rcases Nat.eq_or_lt_of_le hpos with hend | hlt
    · rw [streamFrom_of_le (Nat.le_of_eq hend.symm)]
      exact h.emits_terminator hend (fuel + 1)
    obtain ⟨pos, bs, hit⟩ : ∃ pos bs, iteration (inByte s) (inLength s) s.enc.pos = (pos, bs) := ⟨_, _, rfl⟩
    obtain ⟨cs, hstep, hcs⟩ := step_iteration h.ready hlt hit
    rw [popAgenda_of_nil h.agenda] at hstep
    have hmove := iteration_progress (g := inByte s) hlt
    obtain ⟨hin, -⟩ := iteration_amortized (g := inByte s) hlt
    rw [streamFrom_of_lt hlt, hit]
    rw [hit] at hmove hin
    have hrest : EncAlone (withEnc { s.enc with pos := pos, wp := s.enc.wp + bs.length } cs s) :=
      ⟨h.agenda, h.dec_quiet, h.running⟩
    exact .cons hstep hcs (ih hrest hin (by dsimp only [withEnc, inLength] at *; omega))

/-- Settles O54: a run from position 0, with one iteration for each input byte. -/
theorem encoderRunsCompress : Obligations.EncoderRunsCompress := by
  intro s hagenda hdec hrun hpos hwp
  have h : EncAlone s := ⟨hagenda, hdec, hrun⟩
  obtain ⟨k, cs, hk, hrun, hcs⟩ := h.emits_streamFrom (fuel := inLength s) (by omega) (by omega)
  rw [hpos, hwp, Nat.zero_add] at hrun
  rw [hpos, hwp] at hcs
  exact ⟨k, _, hk, hrun, rfl, hcs.read_of_zero⟩

end Sys2Proof.Machine
end

section
/-! PROOFS. The round trip (R131): on the stream that ENC makes, DEC rebuilds the input token by token, so that at every
token the written part of OUT is the beginning of the input. -/

namespace Sys2Proof.Machine

/-! ### Rebuilding the input -/

/-- OUT holds the first `p` bytes of the input `g`, and the output cursor stands behind them. -/
structure HoldsPrefix (g : Nat → Byte) (p : Nat) (s : State) : Prop where
  oc : s.dec.oc = p
  out : ∀ a, a < p → Memory.read? s.out a = some (g a)

/-- An action that, behind the first `p` bytes of the input, ends a token of `size` stream bytes having written the next
`w` bytes of the input. -/
def Rebuilds (g : Nat → Byte) (p w size : Nat) (act : State → Result) : Prop :=
  ∀ s, HoldsPrefix g p s → ∃ t, act s = .next t ∧ tokenDone size w s t ∧ HoldsPrefix g (p + w) t

/-- What is left to show of a token that is done: the bytes it wrote. -/
theorem HoldsPrefix.extend {g : Nat → Byte} {p w size : Nat} {s t : State} (h : HoldsPrefix g p s)
    (hdone : tokenDone size w s t) (hnew : ∀ j, j < w → Memory.read? t.out (p + j) = some (g (p + j))) :
    HoldsPrefix g (p + w) t := by
  obtain ⟨-, -, -, hoc, -, hframe⟩ := hdone
  refine ⟨by rw [hoc, h.oc], fun a ha => ?_⟩
  rcases Nat.lt_or_ge a p with hold | hge
  · rw [hframe a (by rw [h.oc]; omega), h.out a hold]
  · obtain ⟨j, rfl⟩ := Nat.exists_eq_add_of_le hge
    exact hnew j (by omega)

section
variable {g : Nat → Byte} {p w : Nat}

/-- R145: the capacity check passes while the input fits. -/
theorem Rebuilds.withRoom {bytes size : Nat} {act : State → Result} (hfit : p + bytes ≤ 65536)
    (h : Rebuilds g p w size act) : Rebuilds g p w size fun s => Machine.withRoom bytes s (act s) := by
  intro s hs
  obtain ⟨t, ht, hdone⟩ := h s hs
  have hroom : s.dec.oc + bytes ≤ Config.outCap := by rw [hs.oc]; exact hfit
  exact ⟨t, (withRoom_fits hroom (act s)).trans ht, hdone⟩

/-- R148 to R151: the bytes of a run token are the next bytes of the input. -/
theorem rebuilds_putRun {bs : List Byte} (hlen : bs.length = w) (hbs : ∀ j, j < w → bs[j]? = some (g (p + j)))
    (size : Nat) : Rebuilds g p w size fun s => .next (putRun size bs s) := by
  intro s hs
  subst hlen
  obtain ⟨hdone, -, hbytes⟩ := putRun_spec size bs s
  refine ⟨_, rfl, hdone, hs.extend hdone fun j hj => ?_⟩
  rw [← hs.oc, hbytes j hj, hbs j hj, hs.oc]

/-- R157: the reads of a copy lie in the part rebuilt, and `f` takes the bytes there to the next bytes of the input. -/
theorem rebuilds_putCopy {idx : Nat → Nat} {f : Byte → Byte} (hidx : ∀ j, j < w → idx j < p)
    (hbytes : ∀ j, j < w → f (g (idx j)) = g (p + j)) (size : Nat) :
    Rebuilds g p w size fun s => .next (putCopy size w idx f s) := by
  intro s hs
  obtain ⟨hdone, -, -, hval⟩ := putCopy_spec size w idx f s
  refine ⟨_, rfl, hdone, hs.extend hdone fun j hj => ?_⟩
  have hin : idx j < s.dec.oc := by rw [hs.oc]; exact hidx j hj
  have hread := hs.out (idx j) (hidx j hj)
  rw [← hs.oc]
  rcases hval j hj with ⟨c, -, hc, hdest⟩ | ⟨d, hd, -, -, -⟩
  · obtain ⟨-, -, -, -, -, hframe⟩ := hdone
    rw [hframe (idx j) (by omega), hread] at hc
    rw [hdest, ← Option.some.inj hc, hbytes j hj, hs.oc]
  · obtain ⟨-, hnone⟩ := hd (by omega)
    rw [hread] at hnone
    cases hnone

/-! ### The meanings of the tokens -/

theorem rebuilds_literalBody (h : Nat) {len : Nat} {bytes : List Byte} (hfit : p + len ≤ 65536)
    (hlen : bytes.length = len) (hbytes : ∀ j, j < len → bytes[j]? = some (g (p + j))) :
    Rebuilds g p len (h + len) (literalBody h len bytes) :=
  .withRoom hfit (rebuilds_putRun hlen hbytes _)

theorem rebuilds_fillBody (h : Nat) {len : Nat} {v : Byte} (hfit : p + len ≤ 65536)
    (hbytes : ∀ j, j < len → g (p + j) = v) : Rebuilds g p len (h + 1) (fillBody h len v) :=
  .withRoom hfit (rebuilds_putRun (fillBytes_length len v) (fun j hj => by rw [fillBytes_get hj, hbytes j hj]) _)

theorem rebuilds_wordFillBody (h : Nat) {len : Nat} {v0 v1 : Byte} (hfit : p + 2 * len ≤ 65536)
    (hbytes : ∀ j, j < len → g (p + 2 * j) = v0 ∧ g (p + 2 * j + 1) = v1) :
    Rebuilds g p (2 * len) (h + 2) (wordFillBody h len v0 v1) := by
  refine .withRoom (by omega) (.withRoom hfit (rebuilds_putRun (wordFillBytes_length len v0 v1) (fun j hj => ?_) _))
  obtain ⟨i, rfl | rfl⟩ := Nat.even_or_odd' j
  · rw [(wordFillBytes_get (by omega) v0 v1).1, (hbytes i (by omega)).1]
  · rw [(wordFillBytes_get (by omega) v0 v1).2, ← Nat.add_assoc, (hbytes i (by omega)).2]

theorem rebuilds_sequenceBody (h : Nat) {len : Nat} {v : Byte} (hfit : p + len ≤ 65536)
    (hbytes : ∀ j, j < len → (g (p + j)).toNat = (v.toNat + j) % 256) :
    Rebuilds g p len (h + 1) (sequenceBody h len v) := by
  refine .withRoom hfit (rebuilds_putRun (sequenceBytes_length len v) (fun j hj => ?_) _)
  rw [sequenceBytes_get hj, Option.some.injEq, BitVec.toNat_eq, hbytes j hj]
  simp

/-- R152, R153: a copy upward whose source ends before the cursor. -/
theorem rebuilds_forwardBody (h : Nat) {len a : Nat} {addr : Addr} {f : Byte → Byte} (haddr : addr.toNat = a)
    (hfit : p + len ≤ 65536) (hsrc : a + len ≤ p) (hbytes : ∀ j, j < len → f (g (a + j)) = g (p + j)) :
    Rebuilds g p len (h + 2) (forwardBody h len addr f) := by
  subst haddr
  refine .withRoom hfit ?_
  have hrange : ¬ addr.toNat + len > Config.outCap := Nat.not_lt.2 (hsrc.trans (Nat.le_of_add_right_le hfit))
  simp only [withAddr_eq, if_neg hrange]
  exact rebuilds_putCopy (fun j hj => by omega) hbytes _

/-- R154: a copy downward from below the cursor that does not pass index 0. -/
theorem rebuilds_backwardBody (h : Nat) {len a : Nat} {addr : Addr} (haddr : addr.toNat = a)
    (hfit : p + len ≤ 65536) (hsrc : a < p) (hlen : len ≤ a + 1) (hbytes : ∀ j, j < len → g (a - j) = g (p + j)) :
    Rebuilds g p len (h + 2) (backwardBody h len addr) := by
  subst haddr
  refine .withRoom hfit ?_
  have hrange : ¬ (addr.toNat : Int) - len + 1 < 0 := by omega
  simp only [withAddr_eq, if_neg hrange]
  exact rebuilds_putCopy (fun j hj => by omega) hbytes _

/-! ### The tokens ENC emits -/

/-- R147: the form of the header makes no difference to the bytes. -/
theorem rebuilds_token {c : Prop} [Decidable c] {iS iL : Instr} (hS : Rebuilds g p w iS.size (exec iS))
    (hL : Rebuilds g p w iL.size (exec iL)) :
    Rebuilds g p w (if c then iS else iL).size (exec (if c then iS else iL)) := by
  split
  · exact hS
  · exact hL

theorem literalToken_rebuilds {k : Nat} (hfit : p + k ≤ 65536) :
    Rebuilds g p k (literalToken k (inputRun g k p)).size (exec (literalToken k (inputRun g k p))) := by
  have hbody (h : Nat) : Rebuilds g p k (h + k) (literalBody h k (inputRun g k p)) :=
    rebuilds_literalBody h hfit (inputRun_length g k p) fun j hj => inputRun_get g p hj
  exact rebuilds_token (hbody 1) (hbody 2)

/-- R131: the token of a selected match writes the bytes it was matched on. -/
theorem Selected.rebuilds {n : Nat} {m : Match} (h : Selected g n p m) (hfit : p + m.consumed ≤ 65536) :
    Rebuilds g p m.consumed m.token.size (exec m.token) := by
  have haddr {pos3 : Nat} (hlt : pos3 < p) : (BitVec.ofNat 16 pos3).toNat = pos3 := by
    rw [BitVec.toNat_ofNat]
    omega
  cases h with
  | fill hmin =>
    obtain ⟨-, hok, -⟩ := byteRun_isLongest g n p
    have hbody (h : Nat) := rebuilds_fillBody h hfit fun j hj => (hok j hj).2
    exact rebuilds_token (hbody 1) (hbody 2)
  | wordFill hmin =>
    obtain ⟨-, hok, -⟩ := wordRun_isLongest g n p
    have hbody (h : Nat) := rebuilds_wordFillBody h hfit fun j hj => (hok j hj).2
    exact rebuilds_token (hbody 1) (hbody 2)
  | sequence hmin =>
    obtain ⟨-, hok, -⟩ := arithRun_isLongest g n p
    have hbody (h : Nat) := rebuilds_sequenceBody h hfit fun j hj => (hok j hj).2
    exact rebuilds_token (hbody 1) (hbody 2)
  | @copyForward pos3 hlt hmin =>
    obtain ⟨-, hok, -⟩ := fwdMatch_isLongest g n p pos3
    obtain ⟨hlast, -, -⟩ := hok _ (Nat.sub_one_lt_of_lt hmin)
    have hbody (h : Nat) := rebuilds_forwardBody (f := id) h (haddr hlt) hfit (by dsimp only [Match.consumed]; omega)
      fun j hj => have ⟨_, _, hbyte⟩ := hok j hj; hbyte
    exact rebuilds_token (hbody 1) (hbody 2)
  | @copyBitReversed pos3 hlt hmin =>
    obtain ⟨-, hok, -⟩ := revMatch_isLongest g n p pos3
    obtain ⟨hlast, -, -⟩ := hok _ (Nat.sub_one_lt_of_lt hmin)
    have hbytes (j : Nat) (hj : j < revMatch g n p pos3) : bitrev (g (pos3 + j)) = g (p + j) := by
      obtain ⟨-, -, hbyte⟩ := hok j hj
      rw [hbyte, bitrev_involutive]
    have hbody (h : Nat) := rebuilds_forwardBody h (haddr hlt) hfit (by dsimp only [Match.consumed]; omega) hbytes
    exact rebuilds_token (hbody 1) (hbody 2)
  | @copyBackward pos3 hlt hmin =>
    obtain ⟨-, hok, -⟩ := bwdMatch_isLongest g n p pos3
    obtain ⟨hlast, -, -⟩ := hok _ (Nat.sub_one_lt_of_lt hmin)
    have hbody (h : Nat) := rebuilds_backwardBody h (haddr hlt) hfit hlt (by dsimp only [Match.consumed]; omega)
      fun j hj => have ⟨_, _, hbyte⟩ := hok j hj; hbyte
    exact rebuilds_token (hbody 1) (hbody 2)

end

/-! ### DEC on a stream -/

theorem streamAt_append {s : State} {a : Nat} {bs bs' : List Byte} (h : streamAt s a (bs ++ bs')) :
    streamAt s a bs ∧ streamAt s (a + bs.length) bs' := by
  refine ⟨fun k hk => ?_, fun k hk => ?_⟩
  · rw [h k (by rw [List.length_append]; omega), List.getElem?_append_left hk]
  · rw [Nat.add_assoc, h _ (by rw [List.length_append]; omega), List.getElem?_append_right (Nat.le_add_right _ _),
      Nat.add_sub_cancel_left]

/-- R67: an encoding is as long as its token's size. -/
theorem encode_length {i : Instr} (h : i.wf = true) : (encode i).length = i.size := by
  have hsize := (decode_taken (decodeEncodeRoundTrip i [] h)).size
  simpa using hsize.symm

/-- DEC alone will move, it has rebuilt the first `p` bytes of the input, and `bs` is what it reads next. -/
structure Decoding (g : Nat → Byte) (p : Nat) (bs : List Byte) (e : DecErr) (s : State) : Prop where
  agenda : s.agenda = []
  running : s.dec.status = .running
  err : s.dec.err = e
  rebuilt : HoldsPrefix g p s
  stream : streamAt s s.dec.sc bs

/-- R131: the run ends in DONE with no failure written and the first `n` bytes of the input in OUT. -/
def DecodesTo (g : Nat → Byte) (n : Nat) (e : DecErr) (s : State) : Prop :=
  ∃ k t, Host.Core.run core k s = .next t ∧ t.dec.status = .done ∧ t.dec.err = e ∧ t.dec.oc = n ∧
    ∀ a, a < n → Memory.read? t.out a = some (g a)

theorem DecodesTo.of_step {g : Nat → Byte} {n : Nat} {e : DecErr} {s t : State} (hstep : step s = .next t)
    (h : DecodesTo g n e t) : DecodesTo g n e s := by
  obtain ⟨k, u, hrun, hend⟩ := h
  exact ⟨k + 1, u, (run_succ hstep k).trans hrun, hend⟩

section
variable {g : Nat → Byte} {p : Nat} {bs rest : List Byte} {e : DecErr} {s : State}

/-- R142: the step of DEC is the token that the next bytes encode. -/
theorem Decoding.step_eq {i : Instr} (h : Decoding g p (bs ++ rest) e s) (hi : EncodesAs bs i) : step s = exec i s := by
  have hready : decReady s := ⟨by simp [nextEvent, h.agenda, h.running], h.running⟩
  have hstep := stepRunsEncodedToken s i hready hi.wf (hi.bytes ▸ (streamAt_append h.stream).1)
  have hpop : { s with agenda := s.agenda.tail } = s := popAgenda_of_nil h.agenda
  rwa [hpop] at hstep

/-- R131, R156: a token that rebuilds the next bytes leaves DEC before the rest of the stream. -/
theorem Decoding.token {w : Nat} {i : Instr} (h : Decoding g p (bs ++ rest) e s) (hi : EncodesAs bs i)
    (hr : Rebuilds g p w i.size (exec i)) : ∃ t, step s = .next t ∧ Decoding g (p + w) rest e t := by
  obtain ⟨t, hexec, ⟨hstatus, herr, hsc, -, hframe, -⟩, hprefix⟩ := hr s h.rebuilt
  obtain ⟨-, hsrc, -, -, hsize, hagenda, -, -⟩ := hframe
  refine ⟨t, (h.step_eq hi).trans hexec, hagenda.trans h.agenda, hstatus.trans h.running, herr.trans h.err, hprefix, ?_⟩
  have hrest := (streamAt_append h.stream).2
  rw [hi.bytes, encode_length hi.wf, ← hsc] at hrest
  intro k hk
  rw [← hrest k hk, fetch, fetch, srcByte, srcByte, hsrc, hsize]

/-- R143: at the terminator the run ends. -/
theorem Decoding.terminator (h : Decoding g p [Config.term] e s) : DecodesTo g p e s :=
  .of_step (h.step_eq (rest := []) (i := .terminator) ⟨rfl, rfl⟩)
    ⟨0, _, rfl, rfl, h.err, h.rebuilt.oc, h.rebuilt.out⟩

/-- R117: past a pending literal. -/
theorem Decoding.literal {q n : Nat} (h : Decoding g p (literalBytes g p q ++ rest) e s) (hle : p ≤ q)
    (hmax : q ≤ p + 1024) (hfit : q ≤ 65536) (hrest : ∀ t, Decoding g q rest e t → DecodesTo g n e t) :
    DecodesTo g n e s := by
  obtain ⟨k, rfl⟩ := Nat.exists_eq_add_of_le hle
  rcases Nat.eq_zero_or_pos k with rfl | hk
  · rw [Nat.add_zero, literalBytes_self] at h
    exact hrest s h
  · obtain ⟨t, hstep, ht⟩ := h.token (literalBytes_encodesAs g p hk (by omega)) (literalToken_rebuilds hfit)
    exact .of_step hstep (hrest t ht)

/-- R102: past the bytes of an iteration, the scan's match included. -/
theorem Decoding.iteration {n : Nat} (h : Decoding g p ((iteration g n p).2 ++ rest) e s) (hp : p < n)
    (hn : n ≤ 65536) (hrest : ∀ t, Decoding g (iteration g n p).1 rest e t → DecodesTo g n e t) :
    DecodesTo g n e s := by
  obtain ⟨q, -, ⟨m, hscan, hle, hin, hwin, hsel⟩ | ⟨hscan, hq⟩⟩ := scan_earliest g 1024 (Nat.le_of_lt hp) <;>
    rw [iteration_of_scan hscan] at h hrest
  · rw [List.append_assoc] at h
    refine h.literal hle (Nat.le_of_lt hwin) (by omega) fun t ht => ?_
    have hsaves := (select_saves hsel).inside
    obtain ⟨u, hstep, hu⟩ := ht.token ((select_selected hsel).encodesAs (by omega))
      ((select_selected hsel).rebuilds (by omega))
    exact .of_step hstep (hrest u hu)
  · rw [matchBytes, List.append_nil] at h
    exact h.literal (by omega) (by omega) (by omega) hrest

/-- R131: the stream from `p` on, with as many iterations as input bytes are left. -/
theorem Decoding.streamFrom {n fuel : Nat} (h : Decoding g p (streamFrom g n fuel p) e s) (hp : p ≤ n)
    (hfuel : n ≤ p + fuel) (hn : n ≤ 65536) : DecodesTo g n e s := by
  induction fuel generalizing p s with
  | zero => exact Nat.le_antisymm hp hfuel ▸ h.terminator
  | succ fuel ih =>
    rcases Nat.eq_or_lt_of_le hp with rfl | hlt
    · rw [streamFrom_of_le (Nat.le_refl p)] at h
      exact h.terminator
    · have hmove := iteration_progress (g := g) hlt
      obtain ⟨hin, -⟩ := iteration_amortized (g := g) hlt
      rw [streamFrom_of_lt hlt] at h
      exact h.iteration hlt hn fun t ht => ih ht hin (by omega)

end

/-- Settles O57: DEC starts before the whole stream, with nothing rebuilt yet. -/
theorem roundTrip : Obligations.RoundTrip := by
  intro g n s _ hn hagenda hrun hoc hstream
  have h : Decoding g 0 (compress g n) s.dec.err s :=
    ⟨hagenda, hrun, rfl, ⟨hoc, fun a ha => absurd ha (Nat.not_lt_zero a)⟩, hstream⟩
  exact h.streamFrom (Nat.zero_le n) (Nat.le_add_left n 0) hn

end Sys2Proof.Machine
end

section
/-! PROOFS. What a token does depends on the registers alone; every token is atomic, no token sees what OUT held beyond
the written part, and DEC ends (R142, R161, R164, R213). -/

namespace Sys2Proof.Machine

/-! ### What a token does, as data -/

/-- What a token does once its checks have been made. -/
inductive Effect where
  | fail (c : DecErr)
  | run (bs : List Byte)
  | copy (len : Nat) (idx : Nat → Nat) (f : Byte → Byte)
  | finish

/-- The state an effect of a token of `size` stream bytes leads to. -/
def Effect.apply (size : Nat) : Effect → State → State
  | .fail c, s => raiseDec c s
  | .run bs, s => putRun size bs s
  | .copy len idx f, s => putCopy size len idx f s
  | .finish, s => finishDec s

/-- The effects that the token `i` can have at the output cursor `oc`. -/
inductive Effect.Allowed (i : Instr) (oc : Nat) : Effect → Prop
  | fail {c : DecErr} (hc : c = .reservedType ∨ c = .outOverflow ∨ c = .copyRange ∨ c = .backUnderflow) :
      Allowed i oc (.fail c)
  | run {len : Nat} {bs : List Byte} (hlen : i.lengths = some (len, bs.length))
      (hfit : oc + bs.length ≤ Config.outCap) : Allowed i oc (.run bs)
  | copy {len : Nat} {idx : Nat → Nat} {f : Byte → Byte} (hlen : i.lengths = some (len, len))
      (hfit : oc + len ≤ Config.outCap) : Allowed i oc (.copy len idx f)
  | finish (hi : i = .terminator) : Allowed i oc .finish

/-- At the output cursor `oc` the meaning `act` is one effect of the token `i`, whatever else the state holds. -/
def HasEffect (i : Instr) (oc : Nat) (act : State → Result) : Prop :=
  ∃ e : Effect, e.Allowed i oc ∧ ∀ s, s.dec.oc = oc → act s = .next (e.apply i.size s)

section
variable {i : Instr} {oc : Nat} {act : State → Result}

/-- R145: the capacity check fails, or the rest of the meaning follows. -/
theorem HasEffect.withRoom {bytes : Nat} (h : oc + bytes ≤ Config.outCap → HasEffect i oc act) :
    HasEffect i oc fun s => Machine.withRoom bytes s (act s) := by
  rcases Nat.lt_or_ge Config.outCap (oc + bytes) with hfull | hfit
  · exact ⟨_, .fail (.inr (.inl rfl)), fun s hs => withRoom_full (hs ▸ hfull) _⟩
  · obtain ⟨e, he, hact⟩ := h hfit
    exact ⟨e, he, fun s hs => (withRoom_fits (hs ▸ hfit) _).trans (hact s hs)⟩

/-- A check of the operands fails, or the rest of the meaning follows. -/
theorem HasEffect.check {p : Prop} [Decidable p] {c : DecErr}
    (hc : c = .reservedType ∨ c = .outOverflow ∨ c = .copyRange ∨ c = .backUnderflow) (h : HasEffect i oc act) :
    HasEffect i oc fun s => if p then .next (raiseDec c s) else act s := by
  by_cases hp : p
  · exact ⟨_, .fail hc, fun s _ => if_pos hp⟩
  · obtain ⟨e, he, hact⟩ := h
    exact ⟨e, he, fun s hs => (if_neg hp).trans (hact s hs)⟩

theorem hasEffect_putRun {len w : Nat} {bs : List Byte} (hbs : bs.length = w) (hlen : i.lengths = some (len, w))
    (hfit : oc + w ≤ Config.outCap) : HasEffect i oc fun s => .next (putRun i.size bs s) := by
  subst hbs
  exact ⟨.run bs, .run hlen hfit, fun _ _ => rfl⟩

theorem hasEffect_putCopy {len : Nat} (hlen : i.lengths = some (len, len)) (hfit : oc + len ≤ Config.outCap)
    (idx : Nat → Nat) (f : Byte → Byte) : HasEffect i oc fun s => .next (putCopy i.size len idx f s) :=
  ⟨.copy len idx f, .copy hlen hfit, fun _ _ => rfl⟩

/-! ### The effect of each body; `h` is the size of the header -/

section
variable {h len : Nat}

theorem literalBody_effect {bytes : List Byte} (hsize : i.size = h + len) (hlen : i.lengths = some (len, len))
    (hbytes : bytes.length = len) : HasEffect i oc (literalBody h len bytes) :=
  .withRoom fun hfit => hsize ▸ hasEffect_putRun hbytes hlen hfit

theorem fillBody_effect (v : Byte) (hsize : i.size = h + 1) (hlen : i.lengths = some (len, len)) :
    HasEffect i oc (fillBody h len v) :=
  .withRoom fun hfit => hsize ▸ hasEffect_putRun (fillBytes_length len v) hlen hfit

theorem wordFillBody_effect (v0 v1 : Byte) (hsize : i.size = h + 2) (hlen : i.lengths = some (len, 2 * len)) :
    HasEffect i oc (wordFillBody h len v0 v1) :=
  .withRoom fun _ => .withRoom fun hfit => hsize ▸ hasEffect_putRun (wordFillBytes_length len v0 v1) hlen hfit

theorem sequenceBody_effect (v : Byte) (hsize : i.size = h + 1) (hlen : i.lengths = some (len, len)) :
    HasEffect i oc (sequenceBody h len v) :=
  .withRoom fun hfit => hsize ▸ hasEffect_putRun (sequenceBytes_length len v) hlen hfit

theorem forwardBody_effect (addr : Addr) (f : Byte → Byte) (hsize : i.size = h + 2)
    (hlen : i.lengths = some (len, len)) : HasEffect i oc (forwardBody h len addr f) := by
  refine .withRoom fun hfit => ?_
  simp only [withAddr_eq]
  exact .check (.inr (.inr (.inl rfl))) (hsize ▸ hasEffect_putCopy hlen hfit _ f)

theorem backwardBody_effect (addr : Addr) (hsize : i.size = h + 2) (hlen : i.lengths = some (len, len)) :
    HasEffect i oc (backwardBody h len addr) := by
  refine .withRoom fun hfit => ?_
  simp only [withAddr_eq]
  exact .check (.inr (.inr (.inr rfl))) (hsize ▸ hasEffect_putCopy hlen hfit _ id)

end

end

/-- R147: every token has one effect at each output cursor. -/
theorem exec_effect {i : Instr} (hi : PayloadExact i) (oc : Nat) : HasEffect i oc (exec i) := by
  cases i with
  | literalS len bytes => exact literalBody_effect (h := 1) rfl rfl hi
  | literalL len bytes => exact literalBody_effect (h := 2) rfl rfl hi
  | fillS len v => exact fillBody_effect (h := 1) v rfl rfl
  | fillL len v => exact fillBody_effect (h := 2) v rfl rfl
  | wordFillS len v0 v1 => exact wordFillBody_effect (h := 1) v0 v1 rfl rfl
  | wordFillL len v0 v1 => exact wordFillBody_effect (h := 2) v0 v1 rfl rfl
  | sequenceS len v => exact sequenceBody_effect (h := 1) v rfl rfl
  | sequenceL len v => exact sequenceBody_effect (h := 2) v rfl rfl
  | copyForwardS len addr => exact forwardBody_effect (h := 1) addr id rfl rfl
  | copyForwardL len addr => exact forwardBody_effect (h := 2) addr id rfl rfl
  | copyBitReversedS len addr => exact forwardBody_effect (h := 1) addr bitrev rfl rfl
  | copyBitReversedL len addr => exact forwardBody_effect (h := 2) addr bitrev rfl rfl
  | copyBackwardS len addr => exact backwardBody_effect (h := 1) addr rfl rfl
  | copyBackwardL len addr => exact backwardBody_effect (h := 2) addr rfl rfl
  | reserved7FC b1 | reserved7FD b1 | reserved7FE b1 => exact ⟨_, .fail (.inl rfl), fun _ _ => rfl⟩
  | terminator => exact ⟨_, .finish rfl, fun _ _ => rfl⟩

/-! ### Every token is atomic -/

/-- R63: the payload of a well-formed Literal is as long as its length says. -/
theorem payloadExact_of_wf {i : Instr} (h : i.wf = true) : PayloadExact i := by
  cases i with
  | literalS len bytes | literalL len bytes => exact beq_iff_eq.1 (Bool.and_eq_true_iff.1 h).2
  | _ => trivial

/-- R61, R62: every command writes at least one byte. -/
theorem one_le_of_lengths {i : Instr} {len w : Nat} (h : i.wf = true) (hlen : i.lengths = some (len, w)) : 1 ≤ w := by
  have hshort {k : Nat} (hk : shortLen k = true) : 1 ≤ k := ((Laws.shortLen_iff k).1 hk).1
  have hlong {k : Nat} (hk : longLen k = true) : 1 ≤ k := ((Laws.longLen_iff k).1 hk).1
  cases i with
  | literalS =>
    cases hlen
    exact hshort (Bool.and_eq_true_iff.1 h).1
  | literalL =>
    cases hlen
    exact hlong (Bool.and_eq_true_iff.1 h).1
  | wordFillS =>
    cases hlen
    exact (hshort h).trans (Nat.le_mul_of_pos_left _ Nat.two_pos)
  | wordFillL =>
    cases hlen
    exact (hlong h).trans (Nat.le_mul_of_pos_left _ Nat.two_pos)
  | fillS | sequenceS | copyForwardS | copyBitReversedS | copyBackwardS =>
    cases hlen
    exact hshort h
  | fillL | sequenceL | copyForwardL | copyBitReversedL | copyBackwardL =>
    cases hlen
    exact hlong h
  | reserved7FC | reserved7FD | reserved7FE | terminator => cases hlen

/-- Settles O38: a run or a copy is done whole, a failed check writes the code and the status. -/
theorem everyTokenIsAtomic : Obligations.EveryTokenIsAtomic := by
  intro s i hwf
  obtain ⟨e, he, hexec⟩ := exec_effect (payloadExact_of_wf hwf) s.dec.oc
  rw [hexec s rfl]
  cases he with
  | fail hc => exact .inr (.inl ⟨_, rfl, hc⟩)
  | @run len bs hlen hfit =>
    obtain ⟨hdone, hdraws, -⟩ := putRun_spec i.size bs s
    refine .inl ⟨_, len, _, rfl, hlen, one_le_of_lengths hwf hlen, hfit, hdone, Nat.le_of_eq hdraws.symm, ?_⟩
    exact fun x hlo hhi => Option.isSome_iff_exists.1 (Memory.isSome_writeRun (.inr ⟨hlo, hhi⟩))
  | @copy len idx f hlen hfit =>
    obtain ⟨hdone, hdraws, -, -⟩ := putCopy_spec i.size len idx f s
    refine .inl ⟨_, len, _, rfl, hlen, one_le_of_lengths hwf hlen, hfit, hdone, hdraws, ?_⟩
    exact fun x hlo hhi => Option.isSome_iff_exists.1 (copyLoop_listed idx f _ _ _ _ (.inr ⟨hlo, hhi⟩))
  | finish hi => exact .inr (.inr ⟨hi, rfl⟩)

/-! ### DEC ends -/

/-- R142, R182: a turn of a RUNNING DEC ends the operation, or completes a token: then DEC is RUNNING still, has moved its
output cursor, and is inside OUT. -/
theorem decStep_progress (s : State) : ∃ t, decStep s = .next t ∧
    ((t.dec.status = .done ∨ t.dec.status = .failed) ∨
      (t.dec.status = s.dec.status ∧ t.agenda = s.agenda ∧ s.dec.oc < t.dec.oc ∧ t.dec.oc ≤ 65536)) := by
  unfold decStep
  cases hdec : decode (fetchWindow s) with
  | ok i rest =>
    obtain ⟨hwf, -⟩ := encodeDecodeRoundTrip _ _ _ hdec
    rcases everyTokenIsAtomic s i hwf with ⟨t, len, w, he, -, hw, hfit, hdone, -, -⟩ | ⟨c, he, -⟩ | ⟨-, he⟩
    · obtain ⟨hstatus, -, -, hoc, ⟨-, -, -, -, -, hagenda, -, -⟩, -⟩ := hdone
      exact ⟨t, he, .inr ⟨hstatus, hagenda, by omega, by omega⟩⟩
    · exact ⟨_, he, .inl (.inr rfl)⟩
    · exact ⟨_, he, .inl (.inl rfl)⟩
  | headerCut => exact ⟨_, rfl, .inl (.inr rfl)⟩
  | payloadCut len =>
    rcases withRoom_cases len s (.next (raiseDec .srcRange s)) with ⟨-, he⟩ | ⟨-, he⟩ <;>
      exact ⟨_, he, .inl (.inr rfl)⟩

/-- With an empty agenda a RUNNING DEC is to move. -/
theorem step_of_dec_running {s : State} (hagenda : s.agenda = []) (hrun : s.dec.status = .running) :
    step s = decStep s := by
  rw [step_of_decReady ⟨by simp [nextEvent, hagenda, hrun], hrun⟩, popAgenda_of_nil hagenda]

/-- R164: a step for each byte of OUT above the cursor, and one to end. -/
theorem dec_ends {s : State} {fuel : Nat} (hagenda : s.agenda = []) (hrun : s.dec.status = .running)
    (hfuel : 65536 ≤ s.dec.oc + fuel) :
    ∃ k t, k ≤ fuel + 1 ∧ Host.Core.run core k s = .next t ∧ (t.dec.status = .done ∨ t.dec.status = .failed) := by
  induction fuel generalizing s with
  | zero =>
    obtain ⟨t, hstep, hend⟩ := decStep_progress s
    rw [← step_of_dec_running hagenda hrun] at hstep
    rcases hend with hend | ⟨-, -, hlt, hle⟩
    · exact ⟨1, t, Nat.le_refl 1, run_succ hstep 0, hend⟩
    · omega
  | succ fuel ih =>
    obtain ⟨t, hstep, hend⟩ := decStep_progress s
    rw [← step_of_dec_running hagenda hrun] at hstep
    rcases hend with hend | ⟨hstatus, hagenda', hlt, -⟩
    · exact ⟨1, t, Nat.le_add_left 1 _, run_succ hstep 0, hend⟩
    · obtain ⟨k, u, hk, hrun', hu⟩ := ih (hagenda'.trans hagenda) (hstatus.trans hrun) (by omega)
      exact ⟨k + 1, u, Nat.succ_le_succ hk, (run_succ hstep k).trans hrun', hu⟩

/-- Settles O39: at most 65536 bytes of OUT lie above the cursor. -/
theorem decoderTerminates : Obligations.DecoderTerminates :=
  fun s hagenda hrun => dec_ends hagenda hrun (Nat.le_add_left 65536 s.dec.oc)

/-! ### What OUT held beyond the written part -/

/-- The two spaces agree on the bytes below `n`. -/
def AgreeBelow (n : Nat) (m m' : Memory) : Prop := ∀ a, a < n → Memory.read? m' a = Memory.read? m a

section
variable {m m' : Memory} {oc : Nat}

theorem AgreeBelow.write {a : Nat} (h : AgreeBelow a m m') (b : Byte) :
    AgreeBelow (a + 1) (Memory.write m a b) (Memory.write m' a b) := by
  intro x hx
  rw [Memory.read_write, Memory.read_write]
  split
  · rfl
  · exact h x (by omega)

theorem AgreeBelow.writeRun {a : Nat} (h : AgreeBelow a m m') (bs : List Byte) :
    AgreeBelow (a + bs.length) (Memory.writeRun m a bs) (Memory.writeRun m' a bs) := by
  intro x hx
  rw [Memory.read_writeRun, Memory.read_writeRun]
  split
  · rfl
  · exact h x (by omega)

/-- R159: a read of OUT sees the written part alone. -/
theorem AgreeBelow.readOut {written : Nat} (h : AgreeBelow written m m') (draws a : Nat) :
    readOut m' written draws a = readOut m written draws a := by
  unfold Machine.readOut
  split
  · rename_i ha
    rw [h a ha]
  · rfl

/-- R157, R159: so does a copy, which writes the same bytes and draws the same free values. -/
theorem AgreeBelow.copyLoop {j : Nat} (h : AgreeBelow (oc + j) m m') (idx : Nat → Nat) (f : Byte → Byte)
    (n draws : Nat) :
    AgreeBelow (oc + j + n) (copyLoop idx f oc n j m draws).1 (copyLoop idx f oc n j m' draws).1 ∧
      (copyLoop idx f oc n j m' draws).2 = (copyLoop idx f oc n j m draws).2 := by
  induction n generalizing j m m' draws with
  | zero => exact ⟨h, rfl⟩
  | succ n ih =>
    obtain ⟨t, ht⟩ : ∃ t, Machine.readOut m (oc + j) draws (idx j) = t := ⟨_, rfl⟩
    have hrest := ih (j := j + 1) (h.write (f t.1)) t.2
    rw [show oc + (j + 1) + n = oc + j + (n + 1) by omega] at hrest
    rw [Machine.copyLoop, Machine.copyLoop, h.readOut, ht]
    exact hrest

end

/-- The effect of a token at two states that differ only in OUT, beyond the written part. -/
theorem Effect.apply_leftover (e : Effect) (size : Nat) {s : State} {m : Memory}
    (h : AgreeBelow s.dec.oc s.out m) :
    ∃ m', e.apply size { s with out := m } = { e.apply size s with out := m' } ∧
      AgreeBelow (e.apply size s).dec.oc (e.apply size s).out m' := by
  cases e with
  | fail c => exact ⟨m, rfl, h⟩
  | run bs => exact ⟨_, rfl, h.writeRun bs⟩
  | copy len idx f =>
    obtain ⟨hout, hdraws⟩ := AgreeBelow.copyLoop (j := 0) h idx f len s.draws
    refine ⟨(copyLoop idx f s.dec.oc len 0 m s.draws).1, ?_, hout⟩
    simp only [Effect.apply, putCopy, commit, hdraws]
  | finish => exact ⟨m, rfl, h⟩

/-- The stream bytes are SRC's. -/
theorem fetchRun_congr {s t : State} (hsrc : t.src = s.src) (hsize : t.srcSize = s.srcSize) (k a : Nat) :
    fetchRun t k a = fetchRun s k a := by
  induction k generalizing a with
  | zero => rfl
  | succ k ih =>
    have hfetch : fetch t a = fetch s a := by rw [fetch, fetch, srcByte, srcByte, hsrc, hsize]
    rw [fetchRun, fetchRun, hfetch]
    simp only [ih]

theorem fetchWindow_congr {s t : State} (hsrc : t.src = s.src) (hsize : t.srcSize = s.srcSize)
    (hsc : t.dec.sc = s.dec.sc) : fetchWindow t = fetchWindow s := by
  rw [fetchWindow, fetchWindow, fetchRun_congr hsrc hsize, hsc]

/-- R142, R186: what a token step does, whatever OUT holds. -/
theorem decStep_effect (s : State) :
    ∃ (e : Effect) (size : Nat), ∀ m, decStep { s with out := m } = .next (e.apply size { s with out := m }) := by
  have hwindow (m : Memory) : fetchWindow { s with out := m } = fetchWindow s := fetchWindow_congr rfl rfl rfl
  simp only [decStep, hwindow]
  cases hdec : decode (fetchWindow s) with
  | ok i rest =>
    obtain ⟨e, -, hexec⟩ := exec_effect (decode_taken hdec).payload s.dec.oc
    exact ⟨e, i.size, fun m => hexec _ rfl⟩
  | headerCut => exact ⟨.fail .srcRange, 0, fun _ => rfl⟩
  | payloadCut len =>
    rcases Nat.lt_or_ge Config.outCap (s.dec.oc + len) with hfull | hfit
    · exact ⟨.fail .outOverflow, 0, fun m => withRoom_full (s := { s with out := m }) hfull _⟩
    · exact ⟨.fail .srcRange, 0, fun m => withRoom_fits (s := { s with out := m }) hfit _⟩

/-- Settles O40: the step has one effect, and no effect sees OUT beyond the written part. -/
theorem leftoverOutIsNeverSeen : Obligations.LeftoverOutIsNeverSeen := by
  intro s m h
  by_cases hrun : s.dec.status = .running
  · obtain ⟨e, size, hstep⟩ := decStep_effect s
    obtain ⟨m', hu, hout⟩ := e.apply_leftover size h
    exact ⟨_, _, (if_pos hrun).trans (hstep s.out), (if_pos hrun).trans ((hstep m).trans (congrArg _ hu)), rfl, hout⟩
  · exact ⟨s, _, if_neg hrun, if_neg hrun, rfl, h⟩

end Sys2Proof.Machine
end

section
/-! PROOFS. What each command writes when its checks pass, and the checks (R143 to R156, R183). -/

namespace Sys2Proof.Machine

/-! ### The tokens that end the operation -/

/-- Settles O36: the three tokens have the one meaning. -/
theorem reservedTokensFail : Obligations.ReservedTokensFail := by
  rintro s i b1 (rfl | rfl | rfl)
  · rfl
  · rfl
  · rfl

/-- Settles O37. -/
theorem terminatorEndsDecoding : Obligations.TerminatorEndsDecoding := fun _ => rfl

/-! ### The checks -/

/-- R145: for every command the capacity check of `len` bytes comes first. -/
theorem exec_eq_withRoom {i : Instr} {len w : Nat} (h : i.lengths = some (len, w)) (s : State) :
    ∃ act, exec i s = withRoom len s act := by
  cases i with
  | reserved7FC | reserved7FD | reserved7FE | terminator => cases h
  | _ =>
    cases h
    exact ⟨_, rfl⟩

/-- R150: WordFill checks its `len` first, then the `2 * len` bytes that it writes. -/
theorem exec_wordFill_full {s : State} {i : Instr} {len : Nat} {v0 v1 : Byte} (h : isWordFill i len v0 v1)
    (hfull : Config.outCap < s.dec.oc + 2 * len) : exec i s = .next (raiseDec .outOverflow s) := by
  have hbody (hdr : Nat) : wordFillBody hdr len v0 v1 s = .next (raiseDec .outOverflow s) := by
    rcases withRoom_cases len s (withRoom (2 * len) s (.next (putRun (hdr + 2) (wordFillBytes len v0 v1) s))) with
      ⟨-, he⟩ | ⟨-, he⟩
    · exact he.trans (withRoom_full hfull _)
    · exact he
  rcases h with rfl | rfl
  · exact hbody 1
  · exact hbody 2

/-- Settles O34: the first check of every command, and the second of WordFill. -/
theorem capacityChecked : Obligations.CapacityChecked := by
  refine ⟨fun s i len w hlen hfull => ?_, fun s i len v0 v1 h hfull => exec_wordFill_full h hfull⟩
  obtain ⟨act, hact⟩ := exec_eq_withRoom hlen s
  exact hact.trans (withRoom_full hfull act)

section
variable {s : State} {len : Nat} (hfit : s.dec.oc + len ≤ Config.outCap) (hdr : Nat) {addr : Addr}
include hfit

theorem forwardBody_outside (f : Byte → Byte) (h : Config.outCap < addr.toNat + len) :
    forwardBody hdr len addr f s = .next (raiseDec .copyRange s) := by
  rw [forwardBody, withAddr_eq, withRoom_fits hfit, if_pos h]

theorem forwardBody_inside (f : Byte → Byte) (h : addr.toNat + len ≤ Config.outCap) :
    forwardBody hdr len addr f s = .next (putCopy (hdr + 2) len (fun j => addr.toNat + j) f s) := by
  rw [forwardBody, withAddr_eq, withRoom_fits hfit, if_neg (Nat.not_lt.2 h)]

theorem backwardBody_outside (h : (addr.toNat : Int) - len + 1 < 0) :
    backwardBody hdr len addr s = .next (raiseDec .backUnderflow s) := by
  rw [backwardBody, withAddr_eq, withRoom_fits hfit, if_pos h]

theorem backwardBody_inside (h : len ≤ addr.toNat + 1) :
    backwardBody hdr len addr s = .next (putCopy (hdr + 2) len (fun j => addr.toNat - j) id s) := by
  rw [backwardBody, withAddr_eq, withRoom_fits hfit, if_neg (by omega)]

end

/-- Settles O35: with room in OUT the range check is what is left. -/
theorem copyRangesChecked : Obligations.CopyRangesChecked := by
  intro s i len addr hfit
  refine ⟨?_, ?_⟩
  · rintro ((rfl | rfl) | (rfl | rfl)) hout
    · exact forwardBody_outside hfit 1 id hout
    · exact forwardBody_outside hfit 2 id hout
    · exact forwardBody_outside hfit 1 bitrev hout
    · exact forwardBody_outside hfit 2 bitrev hout
  · rintro (rfl | rfl) hout
    · exact backwardBody_outside hfit 1 hout
    · exact backwardBody_outside hfit 2 hout

/-! ### The commands with the checks passed, in both forms -/

section
variable {s : State} {i : Instr} {len : Nat}

theorem exec_literal {bytes : List Byte} (h : isLiteral i len bytes) (hfit : s.dec.oc + len ≤ Config.outCap) :
    exec i s = .next (putRun i.size bytes s) := by
  rcases h with rfl | rfl <;> exact withRoom_fits hfit _

theorem exec_fill {v : Byte} (h : isFill i len v) (hfit : s.dec.oc + len ≤ Config.outCap) :
    exec i s = .next (putRun i.size (fillBytes len v) s) := by
  rcases h with rfl | rfl <;> exact withRoom_fits hfit _

theorem exec_wordFill {v0 v1 : Byte} (h : isWordFill i len v0 v1) (hfit : s.dec.oc + 2 * len ≤ Config.outCap) :
    exec i s = .next (putRun i.size (wordFillBytes len v0 v1) s) := by
  have hlen : s.dec.oc + len ≤ Config.outCap := by omega
  rcases h with rfl | rfl <;> exact (withRoom_fits hlen _).trans (withRoom_fits hfit _)

theorem exec_sequence {v : Byte} (h : isSequence i len v) (hfit : s.dec.oc + len ≤ Config.outCap) :
    exec i s = .next (putRun i.size (sequenceBytes len v) s) := by
  rcases h with rfl | rfl <;> exact withRoom_fits hfit _

variable {addr : Addr}

theorem exec_copyForward (h : isCopyForward i len addr) (hfit : s.dec.oc + len ≤ Config.outCap)
    (hrange : addr.toNat + len ≤ Config.outCap) :
    exec i s = .next (putCopy i.size len (fun j => addr.toNat + j) id s) := by
  rcases h with rfl | rfl
  · exact forwardBody_inside hfit 1 id hrange
  · exact forwardBody_inside hfit 2 id hrange

theorem exec_copyBitReversed (h : isCopyBitReversed i len addr) (hfit : s.dec.oc + len ≤ Config.outCap)
    (hrange : addr.toNat + len ≤ Config.outCap) :
    exec i s = .next (putCopy i.size len (fun j => addr.toNat + j) bitrev s) := by
  rcases h with rfl | rfl
  · exact forwardBody_inside hfit 1 bitrev hrange
  · exact forwardBody_inside hfit 2 bitrev hrange

theorem exec_copyBackward (h : isCopyBackward i len addr) (hfit : s.dec.oc + len ≤ Config.outCap)
    (hrange : len ≤ addr.toNat + 1) :
    exec i s = .next (putCopy i.size len (fun j => addr.toNat - j) id s) := by
  rcases h with rfl | rfl
  · exact backwardBody_inside hfit 1 hrange
  · exact backwardBody_inside hfit 2 hrange

end

/-! ### The statements about what is written -/

/-- Settles O23: the run written is the payload. -/
theorem literalCopiesPayload : Obligations.LiteralCopiesPayload := by
  intro s i len bytes h hwf hfit
  obtain rfl : bytes.length = len := by
    rcases h with rfl | rfl <;> exact payloadExact_of_wf hwf
  exact ⟨_, exec_literal h hfit, putRun_spec i.size bytes s⟩

/-- Settles O24. -/
theorem fillRepeatsByte : Obligations.FillRepeatsByte := by
  intro s i len v h hfit
  obtain ⟨hdone, hdraws, hbytes⟩ := putRun_spec i.size (fillBytes len v) s
  rw [fillBytes_length] at hdone hbytes
  exact ⟨_, exec_fill h hfit, hdone, hdraws, fun j hj => (hbytes j hj).trans (fillBytes_get hj v)⟩

/-- Settles O25: pair `j` stands at the indices `2 * j` and `2 * j + 1` of the run. -/
theorem wordFillRepeatsPair : Obligations.WordFillRepeatsPair := by
  intro s i len v0 v1 h hfit
  obtain ⟨hdone, hdraws, hbytes⟩ := putRun_spec i.size (wordFillBytes len v0 v1) s
  rw [wordFillBytes_length] at hdone hbytes
  refine ⟨_, exec_wordFill h hfit, hdone, hdraws, fun j hj => ?_⟩
  obtain ⟨h0, h1⟩ := wordFillBytes_get hj v0 v1
  exact ⟨(hbytes _ (by omega)).trans h0, (hbytes _ (by omega)).trans h1⟩

/-- Settles O26: counting up from `v` in bytes is counting modulo 256. -/
theorem sequenceCountsUp : Obligations.SequenceCountsUp := by
  intro s i len v h hfit
  obtain ⟨hdone, hdraws, hbytes⟩ := putRun_spec i.size (sequenceBytes len v) s
  rw [sequenceBytes_length] at hdone hbytes
  refine ⟨_, exec_sequence h hfit, hdone, hdraws, fun j hj => ?_⟩
  rw [hbytes j hj, sequenceBytes_get hj, BitVec.ofNat_add, BitVec.ofNat_toNat, BitVec.setWidth_eq]

/-- Settles O27. -/
theorem copyForwardCopies : Obligations.CopyForwardCopies :=
  fun s i len _ h hfit hrange => ⟨_, exec_copyForward h hfit hrange, putCopy_spec i.size len _ id s⟩

/-- Settles O28. -/
theorem copyBitReversedCopies : Obligations.CopyBitReversedCopies :=
  fun s i len _ h hfit hrange => ⟨_, exec_copyBitReversed h hfit hrange, putCopy_spec i.size len _ bitrev s⟩

/-- Settles O29. -/
theorem copyBackwardCopies : Obligations.CopyBackwardCopies :=
  fun s i len _ h hfit hrange => ⟨_, exec_copyBackward h hfit hrange, putCopy_spec i.size len _ id s⟩

end Sys2Proof.Machine
end

section
/-! PROOFS. Copies by where their reads lie: in the part of OUT that is written, or above it (R152 to R154, R157 to
R159). -/

namespace Sys2Proof.Machine

/-! ### Reads of the written part -/

/-- A copy whose reads all lie in the written part: no free value is drawn, and each byte written is `f` of the one at its
read index. -/
theorem putCopy_written {s : State} {size len : Nat} {idx : Nat → Nat} (f : Byte → Byte) (hw : outWritten s)
    (hidx : ∀ j, j < len → idx j < s.dec.oc + j) :
    (putCopy size len idx f s).draws = s.draws ∧
      (∀ a, a < s.dec.oc → Memory.read? (putCopy size len idx f s).out a = Memory.read? s.out a) ∧
      ∀ j, j < len → Memory.read? (putCopy size len idx f s).out (s.dec.oc + j) =
        (Memory.read? (putCopy size len idx f s).out (idx j)).map f := by
  obtain ⟨⟨-, -, -, -, -, hframe⟩, -, -, hval⟩ := putCopy_spec size len idx f s
  have hdraws : (putCopy size len idx f s).draws = s.draws :=
    copyLoop_draws_eq f s.draws (fun i _ hi => hidx i (by omega)) hw
  refine ⟨hdraws, fun a ha => hframe a (by omega), fun j hj => ?_⟩
  rcases hval j hj with ⟨c, -, hread, hdest⟩ | ⟨d, -, hlo, hhi, -⟩
  · rw [hdest, hread]
    rfl
  · omega

/-- R157: an upward copy from `d` bytes back reads, on its lap `j / d`, what it wrote on the lap before: the byte it
writes is one of the `d` bytes before the cursor, with `f` applied once for each lap begun. -/
theorem putCopy_overlapping {s : State} {size len a d : Nat} (f : Byte → Byte) (hw : outWritten s)
    (hd : a + d = s.dec.oc) (hpos : 0 < d) {j : Nat} (hj : j < len) :
    Memory.read? (putCopy size len (fun j => a + j) f s).out (s.dec.oc + j) =
      (Memory.read? s.out (a + j % d)).map f^[j / d + 1] := by
  obtain ⟨-, hold, hnew⟩ := putCopy_written (size := size) (len := len) (idx := fun j => a + j) f hw
    fun j _ => by omega
  induction j using Nat.strong_induction_on with
  | _ j ih =>
    rw [hnew j hj]
    rcases Nat.lt_or_ge j d with hlt | hge
    · rw [hold _ (by omega), Nat.mod_eq_of_lt hlt, Nat.div_eq_of_lt hlt, Function.iterate_one]
    · have hprev := ih (j - d) (by omega) (by omega)
      rw [show s.dec.oc + (j - d) = a + j by omega, ← Nat.mod_eq_sub_mod hge] at hprev
      rw [hprev, Option.map_map, ← Function.iterate_succ', Nat.div_eq_sub_div hpos hge]

/-- Settles O30: a copy that changes no byte repeats the `d` bytes on every lap. -/
theorem overlappingForwardCopyIsPeriodic : Obligations.OverlappingForwardCopyIsPeriodic := by
  intro s i len d addr h hw hfit hd hpos hrange
  obtain ⟨hdraws, -, -⟩ := putCopy_written (size := i.size) (len := len) (idx := fun j => addr.toNat + j) id hw
    fun j _ => by omega
  refine ⟨_, exec_copyForward h hfit hrange, hdraws, fun j hj => ?_⟩
  rw [putCopy_overlapping id hw hd hpos hj, Function.iterate_id, Option.map_id, id]

/-- R82 (1), R153: the laps alternate. -/
theorem bitrev_iterate_succ (n : Nat) (b : Byte) : bitrev^[n + 1] b = if n % 2 = 0 then bitrev b else b := by
  rw [Function.iterate_succ_apply']
  split
  · rename_i hn
    rw [bitrev_involutive.iterate_even (Nat.even_iff.2 hn), id]
  · rename_i hn
    rw [bitrev_involutive.iterate_odd (Nat.odd_iff.2 (by omega)), bitrev_involutive]

/-- Settles O31: BITREV is applied once for each lap begun. -/
theorem overlappingReversedCopyAlternates : Obligations.OverlappingReversedCopyAlternates := by
  intro s i len d addr h hw hfit hd hpos hrange
  obtain ⟨hdraws, -, -⟩ := putCopy_written (size := i.size) (len := len) (idx := fun j => addr.toNat + j) bitrev hw
    fun j _ => by omega
  refine ⟨_, exec_copyBitReversed h hfit hrange, hdraws, fun j hj => ?_⟩
  rw [putCopy_overlapping bitrev hw hd hpos hj]
  exact congrArg (Option.map · _) (funext (bitrev_iterate_succ (j / d)))

/-- Settles O32: every read lies below the cursor, where the copy changes nothing. -/
theorem backwardCopyReversesOrder : Obligations.BackwardCopyReversesOrder := by
  intro s i len addr h hw hfit hbelow hrange
  obtain ⟨hdraws, hold, hnew⟩ := putCopy_written (size := i.size) (len := len) (idx := fun j => addr.toNat - j) id hw
    fun j _ => by omega
  refine ⟨_, exec_copyBackward h hfit hrange, hdraws, fun j hj => ?_⟩
  rw [hnew j hj, hold _ (by omega), Option.map_id, id]

/-! ### Reads above the written part -/

/-- A copy whose first `m` reads lie above the written part: each draws a fresh free value. Where the written part is
written and the reads after them lie in it, no more are drawn. -/
theorem putCopy_fresh {s : State} {size m k : Nat} {idx : Nat → Nat} (f : Byte → Byte)
    (hidx : ∀ j, j < m → s.dec.oc + j ≤ idx j) :
    (∀ j, j < m → Memory.read? (putCopy size (m + k) idx f s).out (s.dec.oc + j) =
        some (f (Config.freeByte (s.draws + j)))) ∧
      (outWritten s → (∀ j, m ≤ j → j < m + k → idx j < s.dec.oc + j) →
        (putCopy size (m + k) idx f s).draws = s.draws + m) := by
  obtain ⟨hdraws, hbytes⟩ := copyLoop_unwritten (n := m) (j := 0) f s.out s.draws
    fun i _ (hi : i < 0 + m) => hidx i (by omega)
  simp only [putCopy, commit_out, commit_draws, copyLoop_add, Nat.zero_add]
  refine ⟨fun j hj => ?_, fun hw hrest => ?_⟩
  · obtain ⟨hframe, -, -, -⟩ := copyLoop_spec idx f s.dec.oc k m (copyLoop idx f s.dec.oc m 0 s.out s.draws).1
      (copyLoop idx f s.dec.oc m 0 s.out s.draws).2
    rw [hframe _ (by omega)]
    exact hbytes j hj
  · rw [copyLoop_draws_eq f _ hrest, hdraws]
    intro a ha
    refine copyLoop_listed idx f _ _ _ _ ?_
    rcases Nat.lt_or_ge a s.dec.oc with hold | hnew
    · exact .inl (hw a hold)
    · exact .inr ⟨hnew, ha⟩

/-- R159: an upward copy from at or above the cursor reads nothing that is written. -/
theorem putCopy_upward_fresh {s : State} {a : Nat} (size len : Nat) (f : Byte → Byte) (ha : s.dec.oc ≤ a) :
    (putCopy size len (fun j => a + j) f s).draws = s.draws + len ∧
      ∀ j, j < len → Memory.read? (putCopy size len (fun j => a + j) f s).out (s.dec.oc + j) =
        some (f (Config.freeByte (s.draws + j))) :=
  copyLoop_unwritten (idx := fun j => a + j) (oc := s.dec.oc) (n := len) (j := 0) f s.out s.draws
    fun i _ _ => by omega

/-- Settles O33: upward no read lies in the written part; downward those of the first `(addr - oc) / 2 + 1`
bytes do not, and the later ones do. -/
theorem unwrittenCopyDrawsFreshBytes : Obligations.UnwrittenCopyDrawsFreshBytes := by
  refine ⟨fun s i len addr f h hfit hrange habove => ?_, fun s i len addr h hfit hrange habove => ?_⟩
  · rcases h with ⟨h, rfl⟩ | ⟨h, rfl⟩
    · exact ⟨_, exec_copyForward h hfit hrange, putCopy_upward_fresh i.size len id habove⟩
    · exact ⟨_, exec_copyBitReversed h hfit hrange, putCopy_upward_fresh i.size len bitrev habove⟩
  · obtain ⟨m, hm⟩ : ∃ m, min len ((addr.toNat - s.dec.oc) / 2 + 1) = m := ⟨_, rfl⟩
    obtain ⟨k, rfl⟩ : ∃ k, len = m + k := Nat.exists_eq_add_of_le (by omega)
    obtain ⟨hbytes, hdraws⟩ := putCopy_fresh (s := s) (size := i.size) (m := m) (k := k)
      (idx := fun j => addr.toNat - j) id fun j hj => by omega
    refine ⟨_, exec_copyBackward h hfit hrange, fun j hj hread => hbytes j (by omega), fun hw => ?_⟩
    rw [hm]
    exact hdraws hw fun j hlo hhi => by omega

end Sys2Proof.Machine
end

section
/-! PROOFS. The token at the cursor of DEC, whole or cut off by the end of SRC (R142 to R147, R160, R186). -/

namespace Sys2Proof

open Sys2Proof.Machine Sys2Proof.Laws

/-- Settles O19: taking the move from the agenda leaves the window as it is. -/
theorem stepRunsDecodedToken : Obligations.StepRunsDecodedToken := by
  intro s i rest hready hdec
  have hwindow : fetchWindow (popAgenda s) = fetchWindow s := fetchWindow_congr rfl rfl rfl
  rw [step_of_decReady hready, decStep_of_decode (by rw [hwindow, hdec])]
  rfl

/-! ### A payload cut off -/

section
variable {len : Nat} {p : List Byte}

theorem takeRun_cut (h : p.length < len) (k : List Byte → Instr) : takeRun len p k = .payloadCut len := by
  rw [takeRun, splitExact_none.2 h]

theorem takeByte_cut (h : p.length < 1) (k : Byte → Instr) : takeByte len p k = .payloadCut len := by
  rw [List.length_eq_zero_iff.1 (Nat.lt_one_iff.1 h)]
  rfl

theorem takePair_cut (h : p.length < 2) (k : Byte → Byte → Instr) : takePair len p k = .payloadCut len := by
  match p, h with
  | [], _ => rfl
  | [_], _ => rfl

end

/-- After the header `hdr` the token `i` of length `len` has a payload, and the decoder misses any part of it. -/
def NeedsPayload (i : Instr) (len : Nat) (hdr : List Byte) : Prop :=
  ∃ payload, encode i = hdr ++ payload ∧ ∀ p, p.length < payload.length → decode (hdr ++ p) = .payloadCut len

theorem needsPayload_short {i : Instr} {c : Cmd} {len : Nat} {payload : List Byte} (h : shortLen len = true)
    (henc : encode i = shortHeader c len ++ payload)
    (hcut : ∀ p, p.length < payload.length → decodeShort c len p = .payloadCut len) :
    NeedsPayload i len (shortHeader c len) :=
  ⟨payload, henc, fun p hp => (decode_shortHeader c h p).trans (hcut p hp)⟩

theorem needsPayload_long {i : Instr} {c : Cmd} {len : Nat} {payload : List Byte} (h : longLen len = true)
    (henc : encode i = longHeader c len ++ payload)
    (hcut : ∀ p, p.length < payload.length → decodeLong c len p = .payloadCut len) :
    NeedsPayload i len (longHeader c len) :=
  ⟨payload, henc, fun p hp => (decode_longHeader c h p).trans (hcut p hp)⟩

/-- R63: every command has a header in one of the two forms, and a payload. -/
theorem command_needsPayload {i : Instr} {len w : Nat} (hwf : i.wf = true) (hlen : i.lengths = some (len, w)) :
    ∃ c, (shortLen len = true ∧ NeedsPayload i len (shortHeader c len)) ∨
      (longLen len = true ∧ NeedsPayload i len (longHeader c len)) := by
  cases i with
  | literalS n bytes =>
    cases hlen
    obtain ⟨h, hrun⟩ := Bool.and_eq_true_iff.1 hwf
    exact ⟨_, .inl ⟨h, needsPayload_short h rfl fun p hp => takeRun_cut (by rwa [beq_iff_eq.1 hrun] at hp) _⟩⟩
  | literalL n bytes =>
    cases hlen
    obtain ⟨h, hrun⟩ := Bool.and_eq_true_iff.1 hwf
    exact ⟨_, .inr ⟨h, needsPayload_long h rfl fun p hp => takeRun_cut (by rwa [beq_iff_eq.1 hrun] at hp) _⟩⟩
  | fillS | sequenceS =>
    cases hlen
    exact ⟨_, .inl ⟨hwf, needsPayload_short hwf rfl fun p hp => takeByte_cut hp _⟩⟩
  | fillL | sequenceL =>
    cases hlen
    exact ⟨_, .inr ⟨hwf, needsPayload_long hwf rfl fun p hp => takeByte_cut hp _⟩⟩
  | wordFillS | copyForwardS | copyBitReversedS | copyBackwardS =>
    cases hlen
    exact ⟨_, .inl ⟨hwf, needsPayload_short hwf rfl fun p hp => takePair_cut hp _⟩⟩
  | wordFillL | copyForwardL | copyBitReversedL | copyBackwardL =>
    cases hlen
    exact ⟨_, .inr ⟨hwf, needsPayload_long hwf rfl fun p hp => takePair_cut hp _⟩⟩
  | reserved7FC | reserved7FD | reserved7FE | terminator => cases hlen

/-- R61, R62: the size of the header that begins with this byte, if any. -/
def headerSize (b0 : Option Byte) : Nat := if b0.map isShort = some true then 1 else 2

/-- The header of a command is as long as its first byte says. -/
theorem command_header {i : Instr} {len w : Nat} (hwf : i.wf = true) (hlen : i.lengths = some (len, w)) :
    ∃ hdr, NeedsPayload i len hdr ∧ hdr.length = headerSize (encode i).head? := by
  obtain ⟨c, ⟨h, hneeds⟩ | ⟨h, hneeds⟩⟩ := command_needsPayload hwf hlen
  · obtain ⟨hshort, -⟩ := hdrDecode_short (c := c) h rfl 0#8
    have ⟨payload, henc, _⟩ := hneeds
    rw [henc]
    exact ⟨_, hneeds, (if_pos (congrArg some hshort)).symm⟩
  · obtain ⟨hlong, -⟩ := hdrDecode_long (c := c) h rfl
    have ⟨payload, henc, _⟩ := hneeds
    rw [henc]
    refine ⟨_, hneeds, (if_neg fun hshort => ?_).symm⟩
    rw [Option.some.inj hshort] at hlong
    cases hlong

/-- R145, R160: the bytes of a command up to a place in its payload. -/
theorem decode_take {i : Instr} {len w m : Nat} (hwf : i.wf = true) (hlen : i.lengths = some (len, w))
    (hlo : headerSize (encode i).head? ≤ m) (hhi : m < (encode i).length) :
    decode ((encode i).take m) = .payloadCut len := by
  obtain ⟨hdr, ⟨payload, henc, hcut⟩, hhdr⟩ := command_header hwf hlen
  rw [← hhdr] at hlo
  rw [henc] at hhi ⊢
  rw [List.length_append] at hhi
  rw [List.take_append, List.take_of_length_le hlo]
  exact hcut _ (by rw [List.length_take]; omega)

/-! ### The window at the end of SRC -/

/-- SRC ends with these bytes, so the window holds nothing else. -/
theorem fetchWindow_at_end {s : State} {bs : List Byte} (h : streamAt s s.dec.sc bs)
    (hend : s.srcSize ≤ s.dec.sc + bs.length) (hlen : bs.length ≤ Config.tokenMax) : fetchWindow s = bs := by
  obtain ⟨rest, hrest⟩ := fetchWindow_of_streamAt h hlen
  have hle : (fetchWindow s).length ≤ s.srcSize - s.dec.sc := fetchRun_length_le s _ _
  rw [hrest, List.length_append] at hle
  rw [hrest, List.length_eq_zero_iff.1 (show rest.length = 0 by omega), List.append_nil]

theorem decStep_headerCut {s : State} (h : decode (fetchWindow s) = .headerCut) :
    decStep s = .next (raiseDec .srcRange s) := by
  simp only [decStep, h]

/-- R186: the capacity check comes before the payload's fetch. -/
theorem decStep_payloadCut {s : State} {len : Nat} (h : decode (fetchWindow s) = .payloadCut len) :
    decStep s = .next (raiseDec (if 65536 < s.dec.oc + len then .outOverflow else .srcRange) s) := by
  simp only [decStep, h]
  rcases Nat.lt_or_ge 65536 (s.dec.oc + len) with hfull | hfit
  · rw [if_pos hfull]
    exact withRoom_full hfull _
  · rw [if_neg (Nat.not_lt.2 hfit)]
    exact withRoom_fits hfit _

/-- Settles O21: the window is what SRC still holds: nothing, a lone byte, or the beginning of a command. -/
theorem stepFailsAtTheEndOfSrc : Obligations.StepFailsAtTheEndOfSrc := by
  intro s hready
  have hstep := step_of_decReady hready
  refine ⟨fun hend => ?_, fun b0 hend hfetch hterm hlong => ?_, fun i len w m h hwf hlen hh hlo hhi hend hstream => ?_⟩
  · have hwindow : fetchWindow (popAgenda s) = [] :=
      fetchWindow_at_end (bs := []) nofun hend (Nat.zero_le _)
    exact hstep.trans (decStep_headerCut (by rw [hwindow]; rfl))
  · have hstream : streamAt (popAgenda s) (popAgenda s).dec.sc [b0] := by
      intro k hk
      obtain rfl : k = 0 := Nat.lt_one_iff.1 hk
      exact hfetch
    have hwindow := fetchWindow_at_end hstream (Nat.le_of_eq hend.symm) (Nat.le_add_left 1 1025)
    exact hstep.trans (decStep_headerCut (by rw [hwindow, decode_lone hterm hlong]))
  · have htake : ((encode i).take m).length = m := List.length_take_of_le (Nat.le_of_lt hhi)
    have hwindow : fetchWindow (popAgenda s) = (encode i).take m :=
      fetchWindow_at_end hstream (by rw [htake]; exact Nat.le_of_eq hend.symm)
        (by rw [htake]; exact (Nat.le_of_lt hhi).trans (encode_length_le_tokenMax hwf))
    rw [hh] at hlo
    exact hstep.trans (decStep_payloadCut (by rw [hwindow, decode_take hwf hlen hlo hhi]))

end Sys2Proof
end

section
/-! PROOFS. The block at rest (R212): the schedule has no next move exactly when no agent has one. -/

namespace Sys2Proof.Machine

/-- R212: no move comes next exactly when none is pending and no unit is RUNNING. -/
theorem nextEvent_eq_none_iff {s : State} :
    nextEvent s = none ↔ s.agenda = [] ∧ s.dec.status ≠ .running ∧ s.enc.status ≠ .running := by
  unfold nextEvent
  cases s.agenda with
  | cons e rest => simp
  | nil =>
    by_cases hdec : s.dec.status = .running
    · simp [hdec]
    · by_cases henc : s.enc.status = .running <;> simp [hdec, henc]

theorem step_of_nextEvent_none {s : State} (h : nextEvent s = none) : step s = .next s := by
  simp only [step, h]

/-- Settles O22: at rest no move comes next, and the step without a move is the identity. -/
theorem idleBlockDoesNothing : Obligations.IdleBlockDoesNothing :=
  fun _ hagenda hdec henc => step_of_nextEvent_none (nextEvent_eq_none_iff.2 ⟨hagenda, hdec, henc⟩)

end Sys2Proof.Machine
end
